-- ==== Sys2Proof/Word.lean ====
section
/-! DEFINITION. The word sizes of the spec's notation (00_scope.md R10) and its plainest reading of them. -/

namespace Sys2Proof

/-- A 16-bit word (00_scope.md R10): the size of CMD and RES. -/
abbrev Word := BitVec 16

/-- A byte (00_scope.md R10): the bus unit and the size of RSTAT. -/
abbrev Byte := BitVec 8

/-- A 7-bit device address (20_memory.md R61). -/
abbrev Addr7 := BitVec 7

/-- `sint16(w)` of 00_scope.md R10: the word read as a two's-complement integer. -/
abbrev sint16 (w : Word) : Int := w.toInt

end Sys2Proof
end

