-- ==== Sys2Proof/Machine/Bus.lean ====
section
/-! DEFINITION. The names of the bus: channels, lines, the master's contributions, acknowledgements and
the events of a trace (00_scope.md R11, R14; 10_state.md R40; 20_memory.md R66). -/

namespace Sys2Proof

/-- The channels the engine accepts, NUM_CHANNELS = 3 of them (00_scope.md R9). -/
inductive Channel where
  | ch0 | ch1 | ch2
  deriving DecidableEq, Repr, Inhabited

/-- The two lines of a channel (00_scope.md R11). -/
inductive Line where
  | scl | sda
  deriving DecidableEq, Repr, Inhabited

/-- The master's contribution to a line (10_state.md R40): released, output driven 0, push-pull driven 1. -/
inductive Drive where
  | z | l | h
  deriving DecidableEq, Repr, Inhabited

/-- An acknowledgement (00_scope.md R14). -/
inductive Ack where
  | ack | nack
  deriving DecidableEq, Repr, Inhabited

/-- One event of a trace (20_memory.md R66). A sample carries the environment's answer. -/
inductive Event where
  /-- The master set its contribution to a line. -/
  | drv (c : Channel) (l : Line) (v : Drive)
  /-- The master sampled a line and the environment answered `b`. -/
  | smp (c : Channel) (l : Line) (b : Bool)
  /-- The master waited `n` units of about 5 µs. -/
  | wait (c : Channel) (n : Nat)
  deriving DecidableEq, Repr

namespace Machine

/-- ACK = 0 and NACK = 1 (00_scope.md R14), read from a sampled or an encoded bit. -/
def ackOfBit (b : Bool) : Ack := if b then .nack else .ack

/-- ACK = 0 and NACK = 1 (00_scope.md R14), as a bit. -/
def ackBit : Ack → Bool
  | .ack => false
  | .nack => true

/-- The channel an event is tagged with (00_scope.md R11). -/
def eventChannel : Event → Channel
  | .drv c _ _ => c
  | .smp c _ _ => c
  | .wait c _ => c

end Machine

end Sys2Proof
end

