-- ==== Sys2Proof/Syntax.lean ====
section
/-! DEFINITION. The eleven commands (00_scope.md R7), one constructor per row of the opcode table, with the
operands of 30_encoding.md R81 and R82. -/

namespace Sys2Proof

/-- A command. `c` is the field CH of the word, two bits wide, as the table has it: 3 names no channel (R84), which
`Instr.WellFormed` checks. -/
inductive Instr where
  /-- START c, ab (R101). -/
  | start (c : BitVec 2) (ab : Byte)
  /-- RSTART c, ab (R102). -/
  | rstart (c : BitVec 2) (ab : Byte)
  /-- STOP c (R103). -/
  | stop (c : BitVec 2)
  /-- WRB c, b (R104). -/
  | wrb (c : BitVec 2) (b : Byte)
  /-- RDB c, k (R105). -/
  | rdb (c : BitVec 2) (k : Ack)
  /-- BUSRST c (R140). -/
  | busrst (c : BitVec 2)
  /-- TEMP c (R161). -/
  | temp (c : BitVec 2)
  /-- OWRST c, a7 (R181). -/
  | owrst (c : BitVec 2) (a7 : Addr7)
  /-- OWCFG c, a7 (R182). -/
  | owcfg (c : BitVec 2) (a7 : Addr7)
  /-- OWDET c, a7 (R183). -/
  | owdet (c : BitVec 2) (a7 : Addr7)
  /-- OWTRP c, dir, a7 (R184). -/
  | owtrp (c : BitVec 2) (dir : Bool) (a7 : Addr7)
  deriving DecidableEq, Repr

/-- The channel field of a command (30_encoding.md R82). -/
def Instr.chField : Instr → BitVec 2
  | .start c _ => c
  | .rstart c _ => c
  | .stop c => c
  | .wrb c _ => c
  | .rdb c _ => c
  | .busrst c => c
  | .temp c => c
  | .owrst c _ => c
  | .owcfg c _ => c
  | .owdet c _ => c
  | .owtrp c _ _ => c

end Sys2Proof
end

