-- ==== Sys2Proof/WellFormed.lean ====
section
/-! DEFINITION. The one check an operand of a command can fail (30_encoding.md R81, R84): the channel is 0, 1 or 2.
Every other operand range of R86 is the range of its type. -/

namespace Sys2Proof

/-- A command whose operands the encoding admits (30_encoding.md R81: the channel is in 0..2). -/
abbrev Instr.WellFormed (i : Instr) : Prop := i.chField ≠ 3#2

end Sys2Proof
end

