-- ==== Sys2Proof/Decode.lean ====
section
/-! DEFINITION. The decoder of CMD words (30_encoding.md R80 to R84), total, rejecting by name, and after it the
encoder (R82, R83) and the table of match and mask pairs of R83. -/

namespace Sys2Proof

/-- Why a word is illegal (30_encoding.md R84). -/
inductive DecodeError where
  /-- R84 item 1: OP is 0xB to 0xF. -/
  | noOperation (op : BitVec 4)
  /-- R84 item 2: CH = 3. -/
  | channelThree
  /-- R84 item 3: RSV = 1. -/
  | reservedBit
  /-- R84 item 3: F = 1 where it must be 0. -/
  | flagNotZero
  /-- R84 item 3: D is not 0x00 where it must be. -/
  | dataNotZero
  /-- R84 item 3: D[7] = 1 in a bridge command. -/
  | addressTopBit
  deriving DecidableEq, Repr

/-- OP, bits 15:12 (R80). -/
def fieldOp (w : Word) : BitVec 4 := w.extractLsb' 12 4

/-- CH, bits 11:10 (R80). -/
def fieldCh (w : Word) : BitVec 2 := w.extractLsb' 10 2

/-- F, bit 9 (R80). -/
def fieldF (w : Word) : Bool := w.getLsbD 9

/-- RSV, bit 8 (R80). -/
def fieldRsv (w : Word) : Bool := w.getLsbD 8

/-- D, bits 7:0 (R80). -/
def fieldD (w : Word) : Byte := w.extractLsb' 0 8

/-- D[6:0], the 7-bit address of a bridge command (R82). -/
def fieldA7 (w : Word) : Addr7 := w.extractLsb' 0 7

/-- D[7], which must be 0 in a bridge command (R83). -/
def fieldD7 (w : Word) : Bool := w.getLsbD 7

/-- F must be 0 (R83). -/
def needFlagZero (w : Word) (r : Except DecodeError Instr) : Except DecodeError Instr :=
  if fieldF w then .error .flagNotZero else r

/-- D must be 0x00 (R83). -/
def needDataZero (w : Word) (r : Except DecodeError Instr) : Except DecodeError Instr :=
  if fieldD w = 0#8 then r else .error .dataNotZero

/-- D[7] must be 0 (R83). -/
def needAddress (w : Word) (r : Except DecodeError Instr) : Except DecodeError Instr :=
  if fieldD7 w then .error .addressTopBit else r

/-- The opcode map of 30_encoding.md R83, for a word whose channel and reserved bit are legal. -/
def decodeOp (w : Word) : Except DecodeError Instr :=
  match (fieldOp w).toNat with
  | 0x0 => needFlagZero w (.ok (.start (fieldCh w) (fieldD w)))
  | 0x1 => needFlagZero w (.ok (.rstart (fieldCh w) (fieldD w)))
  | 0x2 => needFlagZero w (needDataZero w (.ok (.stop (fieldCh w))))
  | 0x3 => needFlagZero w (.ok (.wrb (fieldCh w) (fieldD w)))
  | 0x4 => needDataZero w (.ok (.rdb (fieldCh w) (Machine.ackOfBit (fieldF w))))
  | 0x5 => needFlagZero w (needDataZero w (.ok (.busrst (fieldCh w))))
  | 0x6 => needFlagZero w (needDataZero w (.ok (.temp (fieldCh w))))
  | 0x7 => needFlagZero w (needAddress w (.ok (.owrst (fieldCh w) (fieldA7 w))))
  | 0x8 => needFlagZero w (needAddress w (.ok (.owcfg (fieldCh w) (fieldA7 w))))
  | 0x9 => needFlagZero w (needAddress w (.ok (.owdet (fieldCh w) (fieldA7 w))))
  | 0xA => needAddress w (.ok (.owtrp (fieldCh w) (fieldF w) (fieldA7 w)))
  | _ => .error (.noOperation (fieldOp w))

/-- The decoder of a CMD word (R80 to R84). -/
def decode (w : Word) : Except DecodeError Instr :=
  if fieldCh w = 3#2 then .error .channelThree
  else if fieldRsv w then .error .reservedBit
  else decodeOp w

/-- A CMD word from its fields, most significant first (R80), RSV = 0. -/
def encodeFields (op : BitVec 4) (c : BitVec 2) (f : Bool) (d : Byte) : Word :=
  (op.setWidth 16 <<< 12) ||| (c.setWidth 16 <<< 10) ||| ((BitVec.ofBool f).setWidth 16 <<< 9) ||| d.setWidth 16

/-- The byte operand `0 : a7` of a bridge command (R80). -/
def encodeA7 (a7 : Addr7) : Byte := a7.setWidth 8

/-- The word of a command (R82, R83). -/
def encode : Instr → Word
  | .start c ab => encodeFields 0x0#4 c false ab
  | .rstart c ab => encodeFields 0x1#4 c false ab
  | .stop c => encodeFields 0x2#4 c false 0#8
  | .wrb c b => encodeFields 0x3#4 c false b
  | .rdb c k => encodeFields 0x4#4 c (Machine.ackBit k) 0#8
  | .busrst c => encodeFields 0x5#4 c false 0#8
  | .temp c => encodeFields 0x6#4 c false 0#8
  | .owrst c a7 => encodeFields 0x7#4 c false (encodeA7 a7)
  | .owcfg c a7 => encodeFields 0x8#4 c false (encodeA7 a7)
  | .owdet c a7 => encodeFields 0x9#4 c false (encodeA7 a7)
  | .owtrp c dir a7 => encodeFields 0xA#4 c dir (encodeA7 a7)

/-- A row of the second table of R83. -/
structure OpcodeRow where
  mnemonic : String
  mask : Word
  value : Word
  deriving DecidableEq, Repr

/-- The match and mask pairs of R83, copied row by row. -/
def opcodeRows : List OpcodeRow :=
  [⟨"START", 0xF300#16, 0x0000#16⟩, ⟨"RSTART", 0xF300#16, 0x1000#16⟩, ⟨"STOP", 0xF3FF#16, 0x2000#16⟩,
   ⟨"WRB", 0xF300#16, 0x3000#16⟩, ⟨"RDB", 0xF1FF#16, 0x4000#16⟩, ⟨"BUSRST", 0xF3FF#16, 0x5000#16⟩,
   ⟨"TEMP", 0xF3FF#16, 0x6000#16⟩, ⟨"OWRST", 0xF380#16, 0x7000#16⟩, ⟨"OWCFG", 0xF380#16, 0x8000#16⟩,
   ⟨"OWDET", 0xF380#16, 0x9000#16⟩, ⟨"OWTRP", 0xF180#16, 0xA000#16⟩]

/-- A word matches a row of R83: `CMD & mask = match`, and CH is not 3. -/
def rowMatches (w : Word) (r : OpcodeRow) : Bool := w &&& r.mask = r.value ∧ fieldCh w ≠ 3#2

/-- The mnemonic of a command (R83). -/
def instrMnemonic : Instr → String
  | .start _ _ => "START"
  | .rstart _ _ => "RSTART"
  | .stop _ => "STOP"
  | .wrb _ _ => "WRB"
  | .rdb _ _ => "RDB"
  | .busrst _ => "BUSRST"
  | .temp _ => "TEMP"
  | .owrst _ _ => "OWRST"
  | .owcfg _ _ => "OWCFG"
  | .owdet _ _ => "OWDET"
  | .owtrp _ _ _ => "OWTRP"

/-- The command the decoder reads from a table word. A command is one 16-bit word (R80), so a longer word is
none, and a shorter `nbits` leaves the word's upper bits 0 (log 16). -/
def decodeTableWord (nbits w : Nat) : Option Instr :=
  if nbits ≤ 16 then
    match decode (BitVec.ofNat 16 (w % 2 ^ nbits)) with
    | .ok i => some i
    | .error _ => none
  else none

end Sys2Proof
end

