-- ==== Sys2Proof/Config.lean ====
section
/-! DEFINITION. The implementation parameters of 00_scope.md R9: the fixed ones as numbers, the OPEN ones as
one constant without a body, and the bus environment (20_memory.md R70) as a function without a body. -/

namespace Sys2Proof.Config

/-- SETTLE: the wait after every line drive, in delay units (R9, D4). -/
abbrev settle : Nat := 1

/-- RECOVERY_PULSES (R9). -/
abbrev recoveryPulses : Nat := 20

/-- STRETCH_TRIES (R9). -/
abbrev stretchTries : Nat := 20

/-- STRETCH_WAIT, in delay units (R9, D19). -/
abbrev stretchWait : Nat := 20000

/-- TEMP_ADDR_COUNT (R9). -/
abbrev tempAddrCount : Nat := 4

/-- TEMP_FULL_SCALE (R9). -/
abbrev tempFullScale : Int := 32768

/-- TEMP_SIGN_BIT (R9). -/
abbrev tempSignBit : Nat := 15

/-- TEMP_STATUS_BITS (R9): how many low bits of the raw word are masked off. -/
abbrev tempStatusBits : Nat := 3

/-- TEMP_FRAC_BITS (R9): the fractional bits of a reading. -/
abbrev tempFracBits : Nat := 7

/-- POLL_LIMIT (R9). -/
abbrev pollLimit : Nat := 200

/-- The OPEN parameters of R9. The model takes them as an argument and assumes no value of any of them. -/
structure Params where
  /-- TEMP_BASE7: the sensor's lowest 7-bit address (D10). -/
  tempBase7 : Addr7
  /-- CMD_DRST: the bridge's device-reset command byte (D11). -/
  cmdDrst : Byte
  /-- CMD_WCFG: the bridge's write-configuration command byte (D11). -/
  cmdWcfg : Byte
  /-- CMD_1WT: the bridge's triplet command byte (D11). -/
  cmd1wt : Byte
  /-- CONFIG_BYTE: written and expected back (10_state.md R39, D11). -/
  configByte : Byte
  /-- RST_MASK (43_onewire_bridge.md R181, D11). -/
  rstMask : Byte
  /-- RST_PATTERN (43_onewire_bridge.md R181, D11). -/
  rstPattern : Byte
  /-- WIRED: the channels with real lines attached (D24). No rule's effect reads it (60_exceptions.md R229). -/
  wired : List Channel
  /-- DELAY_UNIT: the duration of `wait(1)` (D36 leaves its value OPEN). DESIGN CHOICE: held as a whole number of nanoseconds,
  a unit the spec does not name (log 18). No rule's effect reads it (R270). -/
  delayUnit : Nat
  deriving DecidableEq, Repr, Inhabited

/-- The OPEN parameters of this machine. FREE VALUE: no body, so nothing proved rests on a value of theirs (log 7). -/
opaque params : Params

/-- `Env.read(history, c, l)` of 20_memory.md R70, the history newest first. FREE VALUE: no body. It answers the
samples that no pending answer of the state answers (log 1). -/
opaque env : List Event → Channel → Line → Bool

end Sys2Proof.Config
end

