-- ==== Sys2Proof/Machine/State.lean ====
section
/-! DEFINITION. The state of the engine (10_state.md R30 to R52), the bus trace and the two outside agents' pending
actions as plain data, the reasons a step can stop, and the state after reset (70_reset_and_hazards.md R250). -/

namespace Sys2Proof.Machine

/-- The contributions to the two lines of one channel (10_state.md R40). -/
structure LinePair where
  scl : Drive
  sda : Drive
  deriving DecidableEq, Repr

/-- `M[c].l` for every channel (10_state.md R40): six registers of three values. -/
structure Lines where
  ch0 : LinePair
  ch1 : LinePair
  ch2 : LinePair
  deriving DecidableEq, Repr

/-- The registers the host can name (10_state.md R32 to R34). -/
inductive HostReg where
  | cmd | res | rstat
  deriving DecidableEq, Repr

/-- What the outside can do to the engine between two commands: the host's accesses (10_state.md R32 to R35) and a
reset (70_reset_and_hazards.md R250). -/
inductive Input where
  /-- The host writes a register; a write of CMD starts a command. -/
  | write (r : HostReg) (v : Word)
  /-- The host reads a register. -/
  | read (r : HostReg)
  /-- The block is reset. -/
  | reset
  deriving DecidableEq, Repr

/-- The whole state. The first four fields are the machine's (10_state.md R52); `history` is the trace of
20_memory.md R66, newest event first; `answers` are the environment's next answers (R70, log 1) and `inputs` the host's
next actions (log 4). -/
structure State where
  lines : Lines
  cmd : Word
  res : Word
  rstat : Byte
  history : List Event
  answers : List Bool
  inputs : List Input
  deriving DecidableEq, Repr

/-- The faults of a step: NONE. No command raises a trap and every failure is a result code (60_exceptions.md R220,
log 15), so the type has no constructor. -/
inductive Fault where
  deriving DecidableEq, Repr

/-- The refusals of a step. -/
inductive Refusal where
  /-- An instruction that has no meaning yet, by its mnemonic. Raised by an arm of `exec` only, and now by none; safe. -/
  | notModelled (mnemonic : String)
  deriving DecidableEq, Repr

/-- A channel whose two lines are released. -/
def LinePair.released : LinePair := { scl := .z, sda := .z }

/-- The state after reset (10_state.md R52, 70_reset_and_hazards.md R250): every line released, CMD, RES and RSTAT 0.
Nothing has happened on the bus and nothing is pending (DESIGN CHOICE for the model's own three fields, log 5). -/
def State.reset : State :=
  { lines := { ch0 := .released, ch1 := .released, ch2 := .released }
    cmd := 0x0000#16
    res := 0x0000#16
    rstat := 0x00#8
    history := []
    answers := []
    inputs := [] }

end Sys2Proof.Machine
end

