-- ==== Sys2Proof/Machine/Flags.lean ====
section
/-! DEFINITION. The bits of the status register RSTAT (10_state.md R34), its result codes (60_exceptions.md R221), the
contract-violation bit (10_state.md R51) and the bridge status byte (10_state.md R38). -/

namespace Sys2Proof.Machine

/-- The result codes of RSTAT.ERR (60_exceptions.md R221). -/
inductive ErrCode where
  | ok | noAck | busLockup | verifyFail | pollLimit | resetStatus | illegal
  deriving DecidableEq, Repr

/-- The number of a result code (60_exceptions.md R221). -/
def errNumber : ErrCode → BitVec 4
  | .ok => 0#4
  | .noAck => 1#4
  | .busLockup => 2#4
  | .verifyFail => 3#4
  | .pollLimit => 4#4
  | .resetStatus => 5#4
  | .illegal => 15#4

/-- RSTAT.ERR, bits 3:0 (10_state.md R34). -/
def rstatErr (r : Byte) : BitVec 4 := r.extractLsb' 0 4

/-- RSTAT[6:4], reserved (10_state.md R34). -/
def rstatReserved (r : Byte) : BitVec 3 := r.extractLsb' 4 3

/-- RSTAT.CV, bit 7 (10_state.md R34). -/
def rstatCv (r : Byte) : Bool := r.getLsbD 7

/-- RSTAT with a new ERR; CV and the reserved bits stay (10_state.md R36). -/
def rstatWithErr (r : Byte) (e : ErrCode) : Byte := (r &&& 0xF0#8) ||| (errNumber e).setWidth 8

/-- RSTAT with CV set; the other bits stay (10_state.md R51). -/
def rstatWithCv (r : Byte) : Byte := r ||| 0x80#8

/-- What the host reads from RSTAT: the reserved bits read as 0 (10_state.md R34). -/
def rstatRead (r : Byte) : Byte := r &&& 0x8F#8

/-- ERR holds one of the legal values 0 to 5 and 15 (10_state.md R34). -/
def rstatErrLegal (r : Byte) : Bool := (rstatErr r).toNat ≤ 5 ∨ rstatErr r = 15#4

/-- START_body's precondition on SDA, `M[c].SDA ∈ {Z, H}` (10_state.md R51). -/
def startReady (p : LinePair) : Bool := p.sda = .z ∨ p.sda = .h

/-- STOP_body's precondition on SDA, `M[c].SDA = L` (10_state.md R51). -/
def stopReady (p : LinePair) : Bool := p.sda = .l

/-- RSTART_body's precondition on SCL, `M[c].SCL = L` (10_state.md R51). -/
def rstartReady (p : LinePair) : Bool := p.scl = .l

/-- Bit 0 of the bridge status byte, BUSY (10_state.md R38, D12): the only bit the engine reads by name. -/
def statusBusy (st : Byte) : Bool := st.getLsbD 0

/-- Bit 1, PRESENCE (10_state.md R38). -/
def statusPresence (st : Byte) : Bool := st.getLsbD 1

/-- Bit 2, SHORT (10_state.md R38). -/
def statusShort (st : Byte) : Bool := st.getLsbD 2

/-- Bit 3, LEVEL (10_state.md R38). -/
def statusLevel (st : Byte) : Bool := st.getLsbD 3

/-- Bit 4, RESET (10_state.md R38). -/
def statusReset (st : Byte) : Bool := st.getLsbD 4

/-- Bit 5, SBIT (10_state.md R38). -/
def statusSbit (st : Byte) : Bool := st.getLsbD 5

/-- Bit 6, TBIT (10_state.md R38). -/
def statusTbit (st : Byte) : Bool := st.getLsbD 6

/-- Bit 7, DIR (10_state.md R38): what OWTRP's host reads to choose a branch of the search. -/
def statusDir (st : Byte) : Bool := st.getLsbD 7

end Sys2Proof.Machine
end

