-- ==== Sys2Proof/Machine/Operands.lean ====
section
/-! DEFINITION. Operands: the channel a field names (30_encoding.md R82), the address bytes the engine builds
(20_memory.md R61, 42_temperature.md R161), the levels of data bits and acknowledgements, and the assembly of
sampled bits and bytes (20_memory.md R62, R63). -/

namespace Sys2Proof.Machine

/-- The channel a CH field names; 3 names none (30_encoding.md R81, R84). -/
def channelOf (c : BitVec 2) : Option Channel :=
  if c = 0#2 then some .ch0
  else if c = 1#2 then some .ch1
  else if c = 2#2 then some .ch2
  else none

/-- The CH field of a channel (30_encoding.md R82, D41). -/
def channelField : Channel → BitVec 2
  | .ch0 => 0#2
  | .ch1 => 1#2
  | .ch2 => 2#2

/-- An address byte `a7 : dir` (20_memory.md R61); `dir` is true for the read direction. -/
def addressByte (a7 : Addr7) (read : Bool) : Byte :=
  (a7.setWidth 8 <<< 1) ||| (BitVec.ofBool read).setWidth 8

/-- `abW = (a7 << 1) | 0` (30_encoding.md R82). -/
def writeAddress (a7 : Addr7) : Byte := addressByte a7 false

/-- `abR = (a7 << 1) | 1` (30_encoding.md R82). -/
def readAddress (a7 : Addr7) : Byte := addressByte a7 true

/-- The address byte TEMP tries at index i: `(((TEMP_BASE7 + i) mod 128) << 1) | 1` (42_temperature.md R161). -/
def tempAddress (base : Addr7) (i : Nat) : Byte := readAddress (base + BitVec.ofNat 7 i)

/-- The triplet's direction byte: DIR_BYTE(1) = 0x80, DIR_BYTE(0) = 0x00 (00_scope.md R9). -/
def dirByte (dir : Bool) : Byte := if dir then 0x80#8 else 0x00#8

/-- The contribution that presents a data bit (40_bus_primitives.md R104): H for 1, L for 0. -/
def bitDrive (b : Bool) : Drive := if b then .h else .l

/-- The contribution that sends an acknowledgement (40_bus_primitives.md R105): H for NACK, L for ACK. -/
def ackDrive (k : Ack) : Drive := bitDrive (ackBit k)

/-- `zext16(ack)`, the result word of an acknowledgement (10_state.md R37). -/
def ackWord (a : Ack) : Word := (BitVec.ofBool (ackBit a)).setWidth 16

/-- `zext16` of a byte (30_encoding.md R85). -/
def byteWord (b : Byte) : Word := b.setWidth 16

/-- The result word of a boolean: 0x0001 for true, 0x0000 for false (30_encoding.md R85). -/
def boolWord (b : Bool) : Word := if b then 0x0001#16 else 0x0000#16

/-- The register r with its bit i set to b (`r[i] <- b` of 40_bus_primitives.md R105). -/
def withBit (r : Byte) (i : Nat) (b : Bool) : Byte :=
  if b then r ||| BitVec.twoPow 8 i else r &&& ~~~ BitVec.twoPow 8 i

/-- `raw = hi : lo` (20_memory.md R63, 42_temperature.md R164). -/
def tempWord (hi lo : Byte) : Word := (hi.setWidth 16 <<< 8) ||| lo.setWidth 16

end Sys2Proof.Machine
end

