-- ==== Sys2Proof/Machine/Ops.lean ====
section
/-! DEFINITION. The operations every command is made of: reading and setting a contribution register, the line primitives
`drv`, `smp` and `wait` (00_scope.md R11), the contract checks (10_state.md R51), the commit of a result (10_state.md R36),
the end of an illegal command (30_encoding.md R84) and the host's accesses (10_state.md R32 to R35). There is no taking of
an exception here: the block has no traps (60_exceptions.md R220, R226), and `finish` is what stands in its place. -/

namespace Sys2Proof.Machine

/-- The contribution to one line of a pair. -/
def pairLine (p : LinePair) : Line → Drive
  | .scl => p.scl
  | .sda => p.sda

/-- A pair with one line's contribution replaced. -/
def pairSet (p : LinePair) (l : Line) (v : Drive) : LinePair :=
  match l with
  | .scl => { p with scl := v }
  | .sda => { p with sda := v }

/-- The two contributions of a channel. -/
def linesPair (m : Lines) : Channel → LinePair
  | .ch0 => m.ch0
  | .ch1 => m.ch1
  | .ch2 => m.ch2

/-- All contributions with one channel's pair replaced. -/
def linesWith (m : Lines) (c : Channel) (p : LinePair) : Lines :=
  match c with
  | .ch0 => { m with ch0 := p }
  | .ch1 => { m with ch1 := p }
  | .ch2 => { m with ch2 := p }

/-- `M[c]` (10_state.md R40). -/
def State.pair (s : State) (c : Channel) : LinePair := linesPair s.lines c

/-- `M[c].l` (10_state.md R40). -/
def State.line (s : State) (c : Channel) (l : Line) : Drive := pairLine (s.pair c) l

/-- The trace so far, oldest event first (20_memory.md R66). -/
def State.trace (s : State) : List Event := s.history.reverse

/-- One more event in the trace. -/
def emit (e : Event) (s : State) : State := { s with history := e :: s.history }

/-- `wait(n)` (00_scope.md R11): the event and nothing else. -/
def wait (c : Channel) (n : Nat) (s : State) : State := emit (.wait c n) s

/-- `M[c].l <- v` (00_scope.md R11, 10_state.md R40). -/
def setLine (c : Channel) (l : Line) (v : Drive) (s : State) : State :=
  { s with lines := linesWith s.lines c (pairSet (s.pair c) l v) }

/-- `drv(l, v)` (00_scope.md R11): the contribution, the event, and at once the settling wait (20_memory.md R64). It is
emitted whether or not it changes the contribution (20_memory.md R65). -/
def drv (c : Channel) (l : Line) (v : Drive) (s : State) : State :=
  wait c Config.settle (emit (.drv c l v) (setLine c l v s))

/-- What the environment answers next (20_memory.md R70): the first pending answer, and where none is pending the free
value `Env.read(history, c, l)` (log 1). -/
def nextAnswer (answers : List Bool) (history : List Event) (c : Channel) (l : Line) : Bool :=
  match answers with
  | b :: _ => b
  | [] => Config.env history c l

/-- `smp(l)` (00_scope.md R11): the environment's answer and the state with the sample in its trace. -/
def smp (c : Channel) (l : Line) (s : State) : Bool × State :=
  let b := nextAnswer s.answers s.history c l
  (b, emit (.smp c l b) { s with answers := s.answers.tail })

/-- `RSTAT.CV <- 1` when the precondition does not hold (10_state.md R51, 60_exceptions.md R224). -/
def checkContract (holds : Bool) (s : State) : State :=
  if holds then s else { s with rstat := rstatWithCv s.rstat }

/-- `finish(res, err)` (10_state.md R36): RES and RSTAT.ERR, and nothing else. -/
def finish (res : Word) (err : ErrCode) (s : State) : State :=
  { s with res := res, rstat := rstatWithErr s.rstat err }

/-- The end of an illegal command (30_encoding.md R84): `finish(0x0000, ILLEGAL)`, no event. -/
def illegalCommand (s : State) : State := finish 0x0000#16 .illegal s

/-- A command on the channel its CH field names. A CH of 3 makes the command illegal (30_encoding.md R84 item 2, log 9).
Every command ends (60_exceptions.md R220), so the outcome is always a next state. -/
def onChannel (c : BitVec 2) (s : State) (body : Channel → State) : Host.Outcome State Fault Refusal :=
  .next (match channelOf c with
    | some ch => body ch
    | none => illegalCommand s)

/-- What the host reads from a register (10_state.md R32 to R34). A read has no side effect. -/
def hostRead (r : HostReg) (s : State) : Word :=
  match r with
  | .cmd => s.cmd
  | .res => s.res
  | .rstat => (rstatRead s.rstat).setWidth 16

/-- The register effect of a host write: CMD takes the word (10_state.md R32); writes to RES and RSTAT are ignored
(10_state.md R33, R34). -/
def hostWrite (r : HostReg) (v : Word) (s : State) : State :=
  match r with
  | .cmd => { s with cmd := v }
  | .res => s
  | .rstat => s

/-- A reset of a running block (70_reset_and_hazards.md R250): every register of the engine takes its reset value and no
event is emitted. What has happened on the wires and what the outside will do next are not the engine's to reset (log 6). -/
def resetEngine (s : State) : State :=
  { State.reset with history := s.history, answers := s.answers, inputs := s.inputs }

end Sys2Proof.Machine
end

