-- ==== Sys2Proof/Machine/Primitives.lean ====
section
/-! DEFINITION. The bit and byte level engine (40_bus_primitives.md R100 to R108): the bodies of START, RSTART, STOP, WRB
and RDB, which every higher command calls (00_scope.md R12), and the five commands. -/

namespace Sys2Proof.Machine

/-- One clock cycle of WRB_body: the data bit while the clock is low, then the clock high and low (R104). -/
def writeBit (c : Channel) (b : Bool) (s : State) : State :=
  drv c .scl .l (drv c .scl .h (drv c .sda (bitDrive b) s))

/-- Bits n-1 down to 0 of a byte, each in its clock cycle (R104: `for i = 7 downto 0`, with n = 8). -/
def writeBits (c : Channel) (byte : Byte) : Nat → State → State
  | 0, s => s
  | i + 1, s => writeBits c byte i (writeBit c (byte.getLsbD i) s)

/-- The acknowledgement cycle of WRB_body: SDA released, one sample while the clock is high (R104, D37). -/
def sampleAck (c : Channel) (s : State) : Ack × State :=
  let r := smp c .sda (drv c .scl .h (drv c .sda .z s))
  (ackOfBit r.1, drv c .sda .l (drv c .scl .l r.2))

/-- WRB_body (R104). -/
def wrbBody (c : Channel) (byte : Byte) (s : State) : Ack × State :=
  sampleAck c (writeBits c byte 8 (drv c .scl .l s))

/-- START_body (R101). -/
def startBody (c : Channel) (ab : Byte) (s : State) : Ack × State :=
  wrbBody c ab
    (drv c .scl .l (drv c .sda .l (drv c .scl .h (checkContract (startReady (s.pair c)) s))))

/-- RSTART_body (R102). -/
def rstartBody (c : Channel) (ab : Byte) (s : State) : Ack × State :=
  startBody c ab (drv c .sda .z (checkContract (rstartReady (s.pair c)) s))

/-- STOP_body (R103). -/
def stopBody (c : Channel) (s : State) : State :=
  drv c .sda .z (drv c .scl .h (checkContract (stopReady (s.pair c)) s))

/-- Bits n-1 down to 0 sampled into r, one clock pulse each (R105: `for i = 7 downto 0`, with n = 8). -/
def readBits (c : Channel) : Nat → Byte → State → Byte × State
  | 0, r, s => (r, s)
  | i + 1, r, s =>
    let x := smp c .sda (drv c .scl .h s)
    readBits c i (withBit r i x.1) (drv c .scl .l x.2)

/-- The acknowledgement cycle of RDB_body, and the trailing STOP of a NACK (R105, R107). -/
def sendAck (c : Channel) (k : Ack) (s : State) : State :=
  let s := drv c .sda .l (drv c .scl .l (drv c .scl .h (drv c .sda (ackDrive k) s)))
  match k with
  | .ack => s
  | .nack => stopBody c s

/-- RDB_body (R105). -/
def rdbBody (c : Channel) (k : Ack) (s : State) : Byte × State :=
  let x := readBits c 8 0x00#8 (drv c .sda .z (drv c .scl .l s))
  (x.1, sendAck c k x.2)

/-- START (R101): RES = the address byte's acknowledgement, ERR = OK. -/
def execStart (c : BitVec 2) (ab : Byte) (s : State) : Host.Outcome State Fault Refusal :=
  onChannel c s fun ch =>
    let x := startBody ch ab s
    finish (ackWord x.1) .ok x.2

/-- RSTART (R102): RES = the address byte's acknowledgement, ERR = OK. -/
def execRstart (c : BitVec 2) (ab : Byte) (s : State) : Host.Outcome State Fault Refusal :=
  onChannel c s fun ch =>
    let x := rstartBody ch ab s
    finish (ackWord x.1) .ok x.2

/-- STOP (R103): RES = 0, ERR = OK. -/
def execStop (c : BitVec 2) (s : State) : Host.Outcome State Fault Refusal :=
  onChannel c s fun ch => finish 0x0000#16 .ok (stopBody ch s)

/-- WRB (R104): RES = the acknowledgement, ERR = OK. -/
def execWrb (c : BitVec 2) (b : Byte) (s : State) : Host.Outcome State Fault Refusal :=
  onChannel c s fun ch =>
    let x := wrbBody ch b s
    finish (ackWord x.1) .ok x.2

/-- RDB (R105): RES = the byte read, ERR = OK. -/
def execRdb (c : BitVec 2) (k : Ack) (s : State) : Host.Outcome State Fault Refusal :=
  onChannel c s fun ch =>
    let x := rdbBody ch k s
    finish (byteWord x.1) .ok x.2

end Sys2Proof.Machine
end

