-- ==== Sys2Proof/Machine/Bridge.lean ====
section
/-! DEFINITION. The 1-Wire bridge protocol engine (43_onewire_bridge.md R180 to R186). -/

namespace Sys2Proof.Machine

/-- Transfers that each sample an acknowledgement, left to right, up to the first NACK (R182: "or" is evaluated left to right
and stops at the first NACK). -/
def untilNack : List (State → Ack × State) → State → Ack × State
  | [], s => (.ack, s)
  | f :: rest, s =>
    let x := f s
    match x.1 with
    | .ack => untilNack rest x.2
    | .nack => (.nack, x.2)

/-- OWRST_body (R181). A NACK at any of its three steps is answered by STOP_body (R180, D16). -/
def owrstBody (p : Config.Params) (c : Channel) (a7 : Addr7) (s : State) : ErrCode × State :=
  let x := untilNack
    [startBody c (writeAddress a7), wrbBody c p.cmdDrst, rstartBody c (readAddress a7)] s
  match x.1 with
  | .nack => (.noAck, stopBody c x.2)
  | .ack =>
    let st := rdbBody c .nack x.2
    (if st.1 &&& p.rstMask = p.rstPattern then .ok else .resetStatus, st.2)

/-- A corrective reset: OWRST_body with its own result discarded (R180, D17). -/
def correctiveReset (p : Config.Params) (c : Channel) (a7 : Addr7) (s : State) : State :=
  (owrstBody p c a7 s).2

/-- OWCFG_body (R182). -/
def owcfgBody (p : Config.Params) (c : Channel) (a7 : Addr7) (s : State) : ErrCode × State :=
  let x := untilNack
    [startBody c (writeAddress a7), wrbBody c p.cmdWcfg, wrbBody c p.configByte, rstartBody c (readAddress a7)] s
  match x.1 with
  | .nack => (.noAck, correctiveReset p c a7 (stopBody c x.2))
  | .ack =>
    let rb := rdbBody c .nack x.2
    if rb.1 = p.configByte then (.ok, rb.2) else (.verifyFail, correctiveReset p c a7 rb.2)

/-- The commit of a bridge command with a boolean result: RES = 1 exactly when ERR = OK (30_encoding.md R85). -/
def finishBool (x : ErrCode × State) : State := finish (boolWord (x.1 = .ok)) x.1 x.2

/-- OWDET up to its `finish` (R183): the configuration only if the reset succeeded. -/
def detect (p : Config.Params) (c : Channel) (a7 : Addr7) (s : State) : ErrCode × State :=
  let x := owrstBody p c a7 s
  match x.1 with
  | .ok => owcfgBody p c a7 x.2
  | _ => x

/-- The poll loop of R184 after an ACK-read has shown st, with n more reads allowed (n = POLL_LIMIT - p). -/
def pollBusy (c : Channel) : Nat → Byte → State → Byte × State
  | 0, st, s => (st, s)
  | n + 1, st, s =>
    if statusBusy st then
      let x := rdbBody c .ack s
      pollBusy c n x.1 x.2
    else (st, s)

/-- OWTRP after its four acknowledged bytes (R184): poll, then the final byte, which is not checked (D13). -/
def pollTriplet (p : Config.Params) (c : Channel) (a7 : Addr7) (s : State) : State :=
  let first := rdbBody c .ack s
  let x := pollBusy c (Config.pollLimit - 1) first.1 first.2
  let f := rdbBody c .nack x.2
  if statusBusy x.1 then finish 0x0000#16 .pollLimit (correctiveReset p c a7 f.2)
  else finish (byteWord f.1) .ok f.2

/-- OWTRP (R184) on a channel. A NACK before the polling has no corrective reset (D15). -/
def triplet (p : Config.Params) (c : Channel) (dir : Bool) (a7 : Addr7) (s : State) : State :=
  let x := untilNack
    [startBody c (writeAddress a7), wrbBody c p.cmd1wt, wrbBody c (dirByte dir), rstartBody c (readAddress a7)] s
  match x.1 with
  | .nack => finish 0x0000#16 .noAck (stopBody c x.2)
  | .ack => pollTriplet p c a7 x.2

/-- OWRST (R181) under given OPEN parameters. -/
def owrstWith (p : Config.Params) (c : BitVec 2) (a7 : Addr7) (s : State) : Host.Outcome State Fault Refusal :=
  onChannel c s fun ch => finishBool (owrstBody p ch a7 s)

/-- OWCFG (R182) under given OPEN parameters. -/
def owcfgWith (p : Config.Params) (c : BitVec 2) (a7 : Addr7) (s : State) : Host.Outcome State Fault Refusal :=
  onChannel c s fun ch => finishBool (owcfgBody p ch a7 s)

/-- OWDET (R183) under given OPEN parameters. -/
def owdetWith (p : Config.Params) (c : BitVec 2) (a7 : Addr7) (s : State) : Host.Outcome State Fault Refusal :=
  onChannel c s fun ch => finishBool (detect p ch a7 s)

/-- OWTRP (R184) under given OPEN parameters. -/
def owtrpWith (p : Config.Params) (c : BitVec 2) (dir : Bool) (a7 : Addr7) (s : State) :
    Host.Outcome State Fault Refusal :=
  onChannel c s fun ch => triplet p ch dir a7 s

/-- OWRST (R181). -/
def execOwrst (c : BitVec 2) (a7 : Addr7) (s : State) : Host.Outcome State Fault Refusal :=
  owrstWith Config.params c a7 s

/-- OWCFG (R182). -/
def execOwcfg (c : BitVec 2) (a7 : Addr7) (s : State) : Host.Outcome State Fault Refusal :=
  owcfgWith Config.params c a7 s

/-- OWDET (R183). -/
def execOwdet (c : BitVec 2) (a7 : Addr7) (s : State) : Host.Outcome State Fault Refusal :=
  owdetWith Config.params c a7 s

/-- OWTRP (R184). -/
def execOwtrp (c : BitVec 2) (dir : Bool) (a7 : Addr7) (s : State) : Host.Outcome State Fault Refusal :=
  owtrpWith Config.params c dir a7 s

end Sys2Proof.Machine
end

