-- ==== Sys2Proof/Machine/Recovery.lean ====
section
/-! DEFINITION. The bus recovery procedure (41_bus_recovery.md R140 to R147). -/

namespace Sys2Proof.Machine

/-- The outcomes of BUSRST (41_bus_recovery.md R141). -/
inductive Recovery where
  | cleared | sclStuck | sdaClockStretchTimeout | sdaStuck
  deriving DecidableEq, Repr

/-- The outcome code in RES (41_bus_recovery.md R141). -/
def recoveryCode : Recovery → Word
  | .cleared => 0x0000#16
  | .sclStuck => 0x0001#16
  | .sdaClockStretchTimeout => 0x0002#16
  | .sdaStuck => 0x0003#16

/-- ERR: OK for CLEARED, BUS_LOCKUP for the three failures (41_bus_recovery.md R140, 60_exceptions.md R221). -/
def recoveryErr : Recovery → ErrCode
  | .cleared => .ok
  | .sclStuck => .busLockup
  | .sdaClockStretchTimeout => .busLockup
  | .sdaStuck => .busLockup

/-- The SCL sub-loop after a pulse (R140: `for k`): sample, then wait, at most n times. The answer is `ok`. -/
def awaitClock (c : Channel) : Nat → State → Bool × State
  | 0, s => (false, s)
  | k + 1, s =>
    let x := smp c .scl s
    if x.1 then (true, x.2) else awaitClock c k (wait c Config.stretchWait x.2)

/-- The pulse loop (R140: `for n`), at most n pulses while SDA reads low. The answer is false where a pulse's clock did not
return high. -/
def pulseWhileLow (c : Channel) : Nat → State → Bool × State
  | 0, s => (true, s)
  | n + 1, s =>
    let x := smp c .sda s
    if x.1 then (true, x.2)
    else
      let y := awaitClock c Config.stretchTries (drv c .scl .z (drv c .scl .l x.2))
      if y.1 then pulseWhileLow c n y.2 else (false, y.2)

/-- The end of R140: a fresh SDA sample decides between SDA_STUCK and the clearing START and STOP (R143). -/
def clearOrStuck (c : Channel) (s : State) : Recovery × State :=
  let x := smp c .sda s
  if x.1 then (.cleared, drv c .sda .z (drv c .sda .l x.2)) else (.sdaStuck, x.2)

/-- The procedure of R140 up to its `finish`. -/
def recover (c : Channel) (s : State) : Recovery × State :=
  let x := smp c .scl (drv c .sda .z (drv c .scl .z s))
  if x.1 then
    let y := pulseWhileLow c Config.recoveryPulses x.2
    if y.1 then clearOrStuck c y.2 else (.sdaClockStretchTimeout, y.2)
  else (.sclStuck, x.2)

/-- BUSRST (R140): RES = the outcome code, ERR = OK or BUS_LOCKUP. -/
def execBusrst (c : BitVec 2) (s : State) : Host.Outcome State Fault Refusal :=
  onChannel c s fun ch =>
    let x := recover ch s
    finish (recoveryCode x.1) (recoveryErr x.1) x.2

end Sys2Proof.Machine
end

