-- ==== Sys2Proof/Machine/Temperature.lean ====
section
/-! DEFINITION. The temperature sensor protocol and its fixed-point decode (42_temperature.md R160 to R165). -/

namespace Sys2Proof.Machine

/-- TEMP_DECODE (R162), in integers as the rule writes it. -/
def tempDecode (raw : Word) : Word :=
  let masked := raw &&& 0xFFF8#16
  let v : Int :=
    if raw.getLsbD Config.tempSignBit then -(Config.tempFullScale - ((masked &&& 0x7FFF#16).toNat : Int))
    else (masked.toNat : Int)
  BitVec.ofInt 16 v

/-- The physical value of a reading in degrees, `sint16(RES) / 128` (R160). -/
def tempDegrees (reading : Word) : ℚ := sint16 reading / 2 ^ Config.tempFracBits

/-- The two data bytes of the sensor that acknowledged, and the commit of the reading (R161). -/
def readTemp (c : Channel) (s : State) : State :=
  let hi := rdbBody c .ack s
  let lo := rdbBody c .nack hi.2
  finish (tempDecode (tempWord hi.1 lo.1)) .ok lo.2

/-- The address loop of R161 over the indices still to try: the first ACK ends it, a NACK is closed with STOP_body (D6). -/
def sweepTemp (p : Config.Params) (c : Channel) : List Nat → State → State
  | [], s => finish 0x0000#16 .noAck s
  | i :: rest, s =>
    let x := startBody c (tempAddress p.tempBase7 i) s
    match x.1 with
    | .ack => readTemp c x.2
    | .nack => sweepTemp p c rest (stopBody c x.2)

/-- TEMP (R161) under given OPEN parameters. -/
def tempWith (p : Config.Params) (c : BitVec 2) (s : State) : Host.Outcome State Fault Refusal :=
  onChannel c s fun ch => sweepTemp p ch (List.range Config.tempAddrCount) s

/-- TEMP (R161). -/
def execTemp (c : BitVec 2) (s : State) : Host.Outcome State Fault Refusal := tempWith Config.params c s

end Sys2Proof.Machine
end

