-- ==== Sys2Proof/Machine/Dispatch.lean ====
section
/-! DEFINITION. One arm per command: the meaning of each is one direct call. -/

namespace Sys2Proof.Machine

def exec (i : Instr) (s : State) : Host.Outcome State Fault Refusal :=
  match i with
  -- the bit and byte level engine (40_bus_primitives.md)
  | .start c ab => Sys2Proof.Machine.execStart c ab s
  | .rstart c ab => Sys2Proof.Machine.execRstart c ab s
  | .stop c => Sys2Proof.Machine.execStop c s
  | .wrb c b => Sys2Proof.Machine.execWrb c b s
  | .rdb c k => Sys2Proof.Machine.execRdb c k s
  -- bus recovery (41_bus_recovery.md)
  | .busrst c => Sys2Proof.Machine.execBusrst c s
  -- the temperature sensor (42_temperature.md)
  | .temp c => Sys2Proof.Machine.execTemp c s
  -- the 1-Wire bridge (43_onewire_bridge.md)
  | .owrst c a7 => Sys2Proof.Machine.execOwrst c a7 s
  | .owcfg c a7 => Sys2Proof.Machine.execOwcfg c a7 s
  | .owdet c a7 => Sys2Proof.Machine.execOwdet c a7 s
  | .owtrp c dir a7 => Sys2Proof.Machine.execOwtrp c dir a7 s

end Sys2Proof.Machine
end

