-- ==== Sys2Proof/Machine/HostPort.lean ====
section
/-! DEFINITION. What one action of the outside does to the engine (10_state.md R32 to R35, 70_reset_and_hazards.md R250):
a write of CMD starts exactly one command, which runs to its end. -/

namespace Sys2Proof.Machine

/-- The command a CMD word starts: the instruction it decodes to, or the end of an illegal command (30_encoding.md R84). -/
def runWord (w : Word) (s : State) : Host.Outcome State Fault Refusal :=
  match decode w with
  | .ok i => exec i s
  | .error _ => .next (illegalCommand s)

/-- One action of the outside (10_state.md R32 to R35). -/
def hostAction (a : Input) (s : State) : Host.Outcome State Fault Refusal :=
  match a with
  | .write .cmd w => runWord w (hostWrite .cmd w s)
  | .write .res w => .next (hostWrite .res w s)
  | .write .rstat w => .next (hostWrite .rstat w s)
  | .read _ => .next s
  | .reset => .next (resetEngine s)

/-- The state in which a CMD write of w is the next host action (log 4). -/
def withNextCommand (w : Word) (s : State) : State := { s with inputs := .write .cmd w :: s.inputs }

/-- The word whose low `nbits` bits are those of w (log 16). -/
def tableWord (nbits w : Nat) : Word := BitVec.ofNat 16 (w % 2 ^ nbits)

end Sys2Proof.Machine
end

