-- ==== Sys2Proof/Machine/Step.lean ====
section
/-! DEFINITION. One step: the host's next action, whole. The engine fetches nothing (10_state.md R31). -/

namespace Sys2Proof.Machine

/-- One step takes the next pending action of the outside. A command runs to its end in the step that starts it
(00_scope.md R8, 10_state.md R35). With no action pending the engine is idle: it emits nothing and holds every
value (60_exceptions.md R232). -/
def step (s : State) : Host.Outcome State Fault Refusal :=
  match s.inputs with
  | [] => .next s
  | a :: rest => hostAction a { s with inputs := rest }

/-- The state whose very next step is the command whose word is w: the host's write of CMD with that word is put in front
of the host's pending actions (log 4). -/
def State.withFetchWord (s : State) (nbits w : Nat) : State := withNextCommand (tableWord nbits w) s

end Sys2Proof.Machine
end

