-- ==== Sys2Proof/Machine/Views.lean ====
section
/-! DEFINITION. What an observer derives from a trace: the level view and the protocol view (20_memory.md R66), the edges
and conditions on the wires as far as the master's own contributions make them (40_bus_primitives.md R108), event counts,
wait units, and the calls on the consumed GPIO interface that carry the trace out (10_state.md R41). No command reads
any of this. -/

namespace Sys2Proof.Machine

/-- A channel's contributions after one event, from what they were before it. -/
def pairAfter (c : Channel) (p : LinePair) : Event → LinePair
  | .drv c' l v => if c' = c then pairSet p l v else p
  | .smp _ _ _ => p
  | .wait _ _ => p

/-- All contributions after one event: only a drive of that channel and line writes one (10_state.md R40). -/
def linesAfter (m : Lines) : Event → Lines
  | .drv c l v => linesWith m c (pairSet (linesPair m c) l v)
  | .smp _ _ _ => m
  | .wait _ _ => m

/-- The level view of a channel (20_memory.md R66): its pair after each drive that changes it, from the pair p. -/
def levelView (c : Channel) : LinePair → List Event → List LinePair
  | _, [] => []
  | p, e :: es =>
    let q := pairAfter c p e
    if q = p then levelView c q es else q :: levelView c q es

/-- An entry of the protocol view (20_memory.md R66). -/
inductive ProtocolItem where
  | level (p : LinePair)
  | sample (l : Line) (b : Bool)
  deriving DecidableEq, Repr

/-- The sample an event is on channel c, if it is one. -/
def sampleOn (c : Channel) : Event → Option ProtocolItem
  | .drv _ _ _ => none
  | .smp c' l b => if c' = c then some (.sample l b) else none
  | .wait _ _ => none

/-- The protocol view of a channel (20_memory.md R66): the level view together with the samples. -/
def protocolView (c : Channel) : LinePair → List Event → List ProtocolItem
  | _, [] => []
  | p, e :: es =>
    let q := pairAfter c p e
    (if q = p then [] else [.level q]) ++ (sampleOn c e).toList ++ protocolView c q es

/-- The SDA contribution at each drive of SCL to H (40_bus_primitives.md R106). -/
def sdaAtRises (c : Channel) : LinePair → List Event → List Drive
  | _, [] => []
  | p, e :: es =>
    let q := pairAfter c p e
    (if e = .drv c .scl .h then [q.sda] else []) ++ sdaAtRises c q es

/-- A change of a channel's SDA contribution, with the SCL contribution at that moment. -/
structure SdaEdge where
  scl : Drive
  before : Drive
  after : Drive
  deriving DecidableEq, Repr

/-- The changes of SDA on a channel, in order. -/
def sdaEdges (c : Channel) : LinePair → List Event → List SdaEdge
  | _, [] => []
  | p, e :: es =>
    let q := pairAfter c p e
    (if q.sda = p.sda then [] else [{ scl := p.scl, before := p.sda, after := q.sda }]) ++ sdaEdges c q es

/-- A START or a STOP condition (00_scope.md R15). -/
inductive Condition where
  | start | stop
  deriving DecidableEq, Repr

/-- What an SDA edge makes while the clock counts as high (00_scope.md R15): SDA pulled low is a START, SDA let go high
is a STOP. An edge between Z and H is neither. -/
def edgeCondition (clockHigh : Drive → Bool) (e : SdaEdge) : Option Condition :=
  if clockHigh e.scl then
    if e.after = .l then some .start
    else if e.before = .l then some .stop
    else none
  else none

/-- The conditions a trace makes on a channel. -/
def conditions (clockHigh : Drive → Bool) (c : Channel) (p : LinePair) (es : List Event) : List Condition :=
  (sdaEdges c p es).filterMap (edgeCondition clockHigh)

/-- The clock as the five primitives hold it high: driven H (40_bus_primitives.md R108). -/
def clockDrivenHigh (v : Drive) : Bool := v = .h

/-- The clock as BUSRST holds it high: released (41_bus_recovery.md R143). -/
def clockReleased (v : Drive) : Bool := v = .z

/-- Is the event a drive? -/
def isDrv : Event → Bool
  | .drv _ _ _ => true
  | .smp _ _ _ => false
  | .wait _ _ => false

/-- Is the event a sample? -/
def isSmp : Event → Bool
  | .drv _ _ _ => false
  | .smp _ _ _ => true
  | .wait _ _ => false

/-- Is the event a wait of n units? -/
def isWaitOf (n : Nat) : Event → Bool
  | .drv _ _ _ => false
  | .smp _ _ _ => false
  | .wait _ m => m = n

/-- The number of drives in a trace. -/
def countDrv (es : List Event) : Nat := es.countP isDrv

/-- The number of samples in a trace. -/
def countSmp (es : List Event) : Nat := es.countP isSmp

/-- The number of waits of n units in a trace. -/
def countWait (n : Nat) (es : List Event) : Nat := es.countP (isWaitOf n)

/-- The units an event waits for. -/
def eventUnits : Event → Nat
  | .drv _ _ _ => 0
  | .smp _ _ _ => 0
  | .wait _ n => n

/-- The units of about 5 µs a trace waits for (70_reset_and_hazards.md R270, R271). -/
def waitUnits (es : List Event) : Nat := (es.map eventUnits).sum

/-- A call on the consumed interface (10_state.md R41). -/
inductive GpioCall where
  /-- `setLineDirection(line, output?)`. -/
  | setLineDirection (c : Channel) (l : Line) (output : Bool)
  /-- `driveLine(line, level)`, valid only when the direction is output. -/
  | driveLine (c : Channel) (l : Line) (level : Bool)
  /-- `readLine(line)`. -/
  | readLine (c : Channel) (l : Line)
  /-- `delay(n)`. -/
  | delay (n : Nat)
  deriving DecidableEq, Repr

/-- The calls that carry out one event (10_state.md R41). -/
def gpioCalls : Event → List GpioCall
  | .drv c l .z => [.setLineDirection c l false]
  | .drv c l .l => [.setLineDirection c l true, .driveLine c l false]
  | .drv c l .h => [.setLineDirection c l true, .driveLine c l true]
  | .smp c l _ => [.readLine c l]
  | .wait _ n => [.delay n]

end Sys2Proof.Machine
end

