-- ==== Sys2Proof/Machine/Traces.lean ====
section
/-! DEFINITION. The traces the rules give, written as event lists from the rules' own steps and not from the meanings, and
the state a command leaves in terms of its trace. Statements and laws say with these what a command does; no command
reads them. -/

namespace Sys2Proof.Machine

/-- A drive with its settling wait (20_memory.md R64). -/
def settled (c : Channel) (l : Line) (v : Drive) : List Event := [.drv c l v, .wait c 1]

/-- The bits of a byte, most significant first (20_memory.md R62). -/
def bitsMsb (b : Byte) : List Bool :=
  [b.getLsbD 7, b.getLsbD 6, b.getLsbD 5, b.getLsbD 4, b.getLsbD 3, b.getLsbD 2, b.getLsbD 1, b.getLsbD 0]

/-- The number that bits make, the first the most significant (20_memory.md R62). -/
def bitsNumber (bits : List Bool) : Nat := bits.foldl (fun n b => 2 * n + b.toNat) 0

/-- The byte that eight bits make, the first the most significant (20_memory.md R62). -/
def byteOfBits (bits : List Bool) : Byte := BitVec.ofNat 8 (bitsNumber bits)

/-- One data bit of WRB (40_bus_primitives.md R104). -/
def writeCycle (c : Channel) (b : Bool) : List Event :=
  settled c .sda (if b then .h else .l) ++ settled c .scl .h ++ settled c .scl .l

/-- WRB up to its sample (40_bus_primitives.md R104). -/
def wrbLead (c : Channel) (b : Byte) : List Event :=
  settled c .scl .l ++ (bitsMsb b).flatMap (writeCycle c) ++ settled c .sda .z ++ settled c .scl .h

/-- WRB whose sample is answered a (40_bus_primitives.md R104). -/
def wrbEvents (c : Channel) (b : Byte) (a : Bool) : List Event :=
  wrbLead c b ++ [.smp c .sda a] ++ settled c .scl .l ++ settled c .sda .l

/-- START up to its sample (40_bus_primitives.md R101). -/
def startLead (c : Channel) (ab : Byte) : List Event :=
  settled c .scl .h ++ settled c .sda .l ++ settled c .scl .l ++ wrbLead c ab

/-- START whose sample is answered a (40_bus_primitives.md R101). -/
def startEvents (c : Channel) (ab : Byte) (a : Bool) : List Event :=
  settled c .scl .h ++ settled c .sda .l ++ settled c .scl .l ++ wrbEvents c ab a

/-- RSTART up to its sample (40_bus_primitives.md R102). -/
def rstartLead (c : Channel) (ab : Byte) : List Event := settled c .sda .z ++ startLead c ab

/-- RSTART whose sample is answered a (40_bus_primitives.md R102). -/
def rstartEvents (c : Channel) (ab : Byte) (a : Bool) : List Event := settled c .sda .z ++ startEvents c ab a

/-- STOP (40_bus_primitives.md R103). -/
def stopEvents (c : Channel) : List Event := settled c .scl .h ++ settled c .sda .z

/-- One data bit of RDB, answered b (40_bus_primitives.md R105). -/
def readCycle (c : Channel) (b : Bool) : List Event :=
  settled c .scl .h ++ [.smp c .sda b] ++ settled c .scl .l

/-- RDB whose samples are answered by the given bits (40_bus_primitives.md R105, R107). -/
def rdbEvents (c : Channel) (k : Ack) (bits : List Bool) : List Event :=
  settled c .scl .l ++ settled c .sda .z ++ bits.flatMap (readCycle c) ++
    settled c .sda (match k with | .ack => .l | .nack => .h) ++ settled c .scl .h ++ settled c .scl .l ++
    settled c .sda .l ++ (match k with | .ack => [] | .nack => stopEvents c)

/-- n refused looks at the clock, each with its wait (41_bus_recovery.md R140). -/
def stretchEvents (c : Channel) (n : Nat) : List Event :=
  (List.replicate n [Event.smp c .scl false, Event.wait c 20000]).flatten

/-- A recovery pulse after an SDA sample of 0 (41_bus_recovery.md R140). -/
def pulseEvents (c : Channel) : List Event :=
  [.smp c .sda false] ++ settled c .scl .l ++ settled c .scl .z

/-- A recovery pulse whose clock is high after w waits (41_bus_recovery.md R140, R144). -/
def pulseServed (c : Channel) (w : Nat) : List Event :=
  pulseEvents c ++ stretchEvents c w ++ [.smp c .scl true]

/-- BUSRST up to its pulse loop, the clock answered high (41_bus_recovery.md R140). -/
def recoveryLead (c : Channel) (b : Bool) : List Event :=
  settled c .scl .z ++ settled c .sda .z ++ [.smp c .scl b]

/-- The sample that ends the pulse loop early, where the loop does not run out (41_bus_recovery.md R140). -/
def loopExit (c : Channel) (pulses : Nat) : List Event := if pulses < 20 then [.smp c .sda true] else []

/-- BUSRST ending in CLEARED after pulses served with the given waits (41_bus_recovery.md R140, R144). -/
def clearedEvents (c : Channel) (waits : List Nat) : List Event :=
  recoveryLead c true ++ waits.flatMap (pulseServed c) ++ loopExit c waits.length ++
    [.smp c .sda true] ++ settled c .sda .l ++ settled c .sda .z

/-- BUSRST ending in SDA_STUCK after pulses served with the given waits (41_bus_recovery.md R140, R144). -/
def sdaStuckEvents (c : Channel) (waits : List Nat) : List Event :=
  recoveryLead c true ++ waits.flatMap (pulseServed c) ++ loopExit c waits.length ++ [.smp c .sda false]

/-- BUSRST ending in SDA_CLOCK_STRETCH_TIMEOUT after pulses served with the given waits (41_bus_recovery.md R140, R144). -/
def timeoutEvents (c : Channel) (waits : List Nat) : List Event :=
  recoveryLead c true ++ waits.flatMap (pulseServed c) ++ pulseEvents c ++ stretchEvents c 20

/-- A failed attempt of TEMP at index i (42_temperature.md R161). -/
def tempMiss (c : Channel) (base : Addr7) (i : Nat) : List Event :=
  startEvents c (BitVec.ofNat 8 (2 * ((base.toNat + i) % 128) + 1)) true ++ stopEvents c

/-- TEMP with the sensor at index i sending hi and lo (42_temperature.md R161). -/
def tempFound (c : Channel) (base : Addr7) (i : Nat) (hi lo : Byte) : List Event :=
  (List.range i).flatMap (tempMiss c base) ++
    startEvents c (BitVec.ofNat 8 (2 * ((base.toNat + i) % 128) + 1)) false ++
    rdbEvents c .ack (bitsMsb hi) ++ rdbEvents c .nack (bitsMsb lo)

/-- A write-direction address byte (30_encoding.md R82), as a number. -/
def wAddr (a7 : Addr7) : Byte := BitVec.ofNat 8 (2 * a7.toNat)

/-- A read-direction address byte (30_encoding.md R82), as a number. -/
def rAddr (a7 : Addr7) : Byte := BitVec.ofNat 8 (2 * a7.toNat + 1)

/-- The acknowledged transfers that open a bridge command: the address, the written bytes, the repeated START
(43_onewire_bridge.md R181, R182, R184). -/
def bridgeOpen (c : Channel) (a7 : Addr7) (bytes : List Byte) : List Event :=
  startEvents c (wAddr a7) false ++ bytes.flatMap (fun b => wrbEvents c b false) ++ rstartEvents c (rAddr a7) false

/-- The transfers of a bridge command whose transfer j, counted from 0, is the first not acknowledged, and the STOP that
follows (43_onewire_bridge.md R180). -/
def bridgeNacked (c : Channel) (a7 : Addr7) (bytes : List Byte) (j : Nat) : List Event :=
  (if j = 0 then startEvents c (wAddr a7) true
   else startEvents c (wAddr a7) false ++ (bytes.take (j - 1)).flatMap (fun b => wrbEvents c b false) ++
    match bytes[j - 1]? with
    | some b => wrbEvents c b true
    | none => rstartEvents c (rAddr a7) true) ++ stopEvents c

/-- The answer to a sample that comes after the events es (20_memory.md R70). -/
def answerAfter (s : State) (es : List Event) (c : Channel) (l : Line) : Bool :=
  nextAnswer (s.answers.drop (countSmp es)) (es.reverse ++ s.history) c l

/-- The state that events es on a channel leave when they end with the pair p: the trace grows by them, each sample takes
one answer, CV is set where a precondition was broken, and nothing else changes. -/
def ran (s : State) (c : Channel) (es : List Event) (p : LinePair) (broken : Bool) : State :=
  { s with
    lines := linesWith s.lines c p
    rstat := if broken then rstatWithCv s.rstat else s.rstat
    history := es.reverse ++ s.history
    answers := s.answers.drop (countSmp es) }

/-- The state after a command with that trace, final pair, contract check and result. -/
def after (s : State) (c : Channel) (es : List Event) (p : LinePair) (broken : Bool) (res : Word) (err : ErrCode) : State :=
  finish res err (ran s c es p broken)

end Sys2Proof.Machine
end

