-- ==== Sys2Proof/Machine/Assembler.lean ====
section
/-! DEFINITION. The assembler of 30_encoding.md R86 and the pseudo-instructions of R87. It is no part of the engine: the
host makes its command words with it. What R86 leaves open of the line's form is log 14. -/

namespace Sys2Proof.Machine

/-- The mnemonics of R86 and the pseudo-instructions of R87. -/
inductive AsmOp where
  | start | rstart | stop | wrb | rdb | busrst | temp | owrst | owcfg | owdet | owtrp
  | startw | startr | rstartr | rstartw | rda | rdn | owtrp0 | owtrp1
  deriving DecidableEq, Repr

/-- The spelling of a mnemonic (R86, R87). -/
def asmOpText : AsmOp → String
  | .start => "START"
  | .rstart => "RSTART"
  | .stop => "STOP"
  | .wrb => "WRB"
  | .rdb => "RDB"
  | .busrst => "BUSRST"
  | .temp => "TEMP"
  | .owrst => "OWRST"
  | .owcfg => "OWCFG"
  | .owdet => "OWDET"
  | .owtrp => "OWTRP"
  | .startw => "STARTW"
  | .startr => "STARTR"
  | .rstartr => "RSTARTR"
  | .rstartw => "RSTARTW"
  | .rda => "RDA"
  | .rdn => "RDN"
  | .owtrp0 => "OWTRP0"
  | .owtrp1 => "OWTRP1"

/-- All mnemonics. -/
def asmOps : List AsmOp :=
  [.start, .rstart, .stop, .wrb, .rdb, .busrst, .temp, .owrst, .owcfg, .owdet, .owtrp,
   .startw, .startr, .rstartr, .rstartw, .rda, .rdn, .owtrp0, .owtrp1]

/-- An operand in its range 0..bound-1; out of range is an assembly error (R86). -/
def inRange (bound n : Nat) (k : Nat → Option Instr) : Option Instr := if n < bound then k n else none

/-- A line whose operands are a channel only (R86). -/
def asmChannel (c : Nat) (k : BitVec 2 → Instr) : Option Instr :=
  inRange 3 c fun c => some (k (BitVec.ofNat 2 c))

/-- A line whose operands are a channel and a byte (R86). -/
def asmByte (c b : Nat) (k : BitVec 2 → Byte → Instr) : Option Instr :=
  inRange 3 c fun c => inRange 256 b fun b => some (k (BitVec.ofNat 2 c) (BitVec.ofNat 8 b))

/-- A line whose operands are a channel and a 7-bit address (R86). -/
def asmAddr (c a7 : Nat) (k : BitVec 2 → Addr7 → Instr) : Option Instr :=
  inRange 3 c fun c => inRange 128 a7 fun a7 => some (k (BitVec.ofNat 2 c) (BitVec.ofNat 7 a7))

/-- A line whose operands are a channel and one bit (R86). -/
def asmBit (c b : Nat) (k : BitVec 2 → Bool → Instr) : Option Instr :=
  inRange 3 c fun c => inRange 2 b fun b => some (k (BitVec.ofNat 2 c) (b = 1))

/-- One command from a mnemonic and its numeric operands (R86, R87); none is an assembly error. -/
def assemble (op : AsmOp) (args : List Nat) : Option Instr :=
  match op, args with
  | .start, [c, ab] => asmByte c ab .start
  | .rstart, [c, ab] => asmByte c ab .rstart
  | .stop, [c] => asmChannel c .stop
  | .wrb, [c, b] => asmByte c b .wrb
  | .rdb, [c, k] => asmBit c k fun c k => .rdb c (ackOfBit k)
  | .busrst, [c] => asmChannel c .busrst
  | .temp, [c] => asmChannel c .temp
  | .owrst, [c, a7] => asmAddr c a7 .owrst
  | .owcfg, [c, a7] => asmAddr c a7 .owcfg
  | .owdet, [c, a7] => asmAddr c a7 .owdet
  | .owtrp, [c, dir, a7] => inRange 2 dir fun dir => asmAddr c a7 fun c a7 => .owtrp c (dir = 1) a7
  | .startw, [c, a7] => asmAddr c a7 fun c a7 => .start c (writeAddress a7)
  | .startr, [c, a7] => asmAddr c a7 fun c a7 => .start c (readAddress a7)
  | .rstartr, [c, a7] => asmAddr c a7 fun c a7 => .rstart c (readAddress a7)
  | .rstartw, [c, a7] => asmAddr c a7 fun c a7 => .rstart c (writeAddress a7)
  | .rda, [c] => asmChannel c fun c => .rdb c .ack
  | .rdn, [c] => asmChannel c fun c => .rdb c .nack
  | .owtrp0, [c, a7] => asmAddr c a7 fun c a7 => .owtrp c false a7
  | .owtrp1, [c, a7] => asmAddr c a7 fun c a7 => .owtrp c true a7
  | _, _ => none

/-- The line of a command: the mnemonic and operands that R86 writes for it. -/
def disassemble : Instr → AsmOp × List Nat
  | .start c ab => (.start, [c.toNat, ab.toNat])
  | .rstart c ab => (.rstart, [c.toNat, ab.toNat])
  | .stop c => (.stop, [c.toNat])
  | .wrb c b => (.wrb, [c.toNat, b.toNat])
  | .rdb c k => (.rdb, [c.toNat, (ackBit k).toNat])
  | .busrst c => (.busrst, [c.toNat])
  | .temp c => (.temp, [c.toNat])
  | .owrst c a7 => (.owrst, [c.toNat, a7.toNat])
  | .owcfg c a7 => (.owcfg, [c.toNat, a7.toNat])
  | .owdet c a7 => (.owdet, [c.toNat, a7.toNat])
  | .owtrp c dir a7 => (.owtrp, [c.toNat, dir.toNat, a7.toNat])

/-- The value of a digit in base 16. -/
def digitValue (ch : Char) : Option Nat :=
  if '0' ≤ ch ∧ ch ≤ '9' then some (ch.toNat - '0'.toNat)
  else if 'a' ≤ ch ∧ ch ≤ 'f' then some (ch.toNat - 'a'.toNat + 10)
  else if 'A' ≤ ch ∧ ch ≤ 'F' then some (ch.toNat - 'A'.toNat + 10)
  else none

/-- Digits in a base, most significant first, after the value so far. -/
def digitsFrom (base : Nat) : Nat → List Char → Option Nat
  | acc, [] => some acc
  | acc, ch :: rest =>
    match digitValue ch with
    | some d => if d < base then digitsFrom base (acc * base + d) rest else none
    | none => none

/-- A number: decimal, or hexadecimal after `0x` (R86). ACK and NACK are the numbers 0 and 1 (R86, 00_scope.md R14). -/
def parseOperand (t : List Char) : Option Nat :=
  match t with
  | [] => none
  | ['0', 'x'] => none
  | '0' :: 'x' :: rest => digitsFrom 16 0 rest
  | ['A', 'C', 'K'] => some 0
  | ['N', 'A', 'C', 'K'] => some 1
  | t => digitsFrom 10 0 t

/-- Are the names ACK and NACK written only as the second operand of RDB (R86)? -/
def namedAckAllowed (op : AsmOp) (i : Nat) (t : List Char) : Bool :=
  (t ≠ ['A', 'C', 'K'] ∧ t ≠ ['N', 'A', 'C', 'K']) ∨ (op = .rdb ∧ i = 1)

/-- Blank characters of a line (log 14). -/
def isBlank (ch : Char) : Bool := ch = ' ' ∨ ch = '\t'

/-- A text without the blanks at its two ends. -/
def trimBlanks (t : List Char) : List Char := ((t.dropWhile isBlank).reverse.dropWhile isBlank).reverse

/-- The comma-separated parts of a text (R86). -/
def splitCommas : List Char → List (List Char)
  | [] => [[]]
  | ch :: rest =>
    if ch = ',' then [] :: splitCommas rest
    else
      match splitCommas rest with
      | [] => [[ch]]
      | p :: ps => (ch :: p) :: ps

/-- The operands of a line, from position i on; none where one is malformed. -/
def parseOperands (op : AsmOp) : Nat → List (List Char) → Option (List Nat)
  | _, [] => some []
  | i, t :: rest =>
    if namedAckAllowed op i t then
      match parseOperand t, parseOperands op (i + 1) rest with
      | some n, some ns => some (n :: ns)
      | _, _ => none
    else none

/-- One line of assembly (R86): a mnemonic, its comma-separated operands, and a comment after `;`. None is an assembly
error. -/
def assembleLine (line : List Char) : Option Instr :=
  let text := trimBlanks (line.takeWhile (· ≠ ';'))
  let name := text.takeWhile (fun ch => ¬ isBlank ch)
  match asmOps.find? (fun op => (asmOpText op).toList = name) with
  | none => none
  | some op =>
    match parseOperands op 0 ((splitCommas (text.drop name.length)).map trimBlanks) with
    | some args => assemble op args
    | none => none

end Sys2Proof.Machine
end

