-- ==== Sys2Proof/Safety.lean ====
section
/-! DEFINITION. What counts as a safe state and a safe command, in the terms the statements use: the legal contents of
RSTAT (10_state.md R34), an idle and a held bus (40_bus_primitives.md R101 to R105), and the host's duties
(70_reset_and_hazards.md R254, R255, R257, R263). -/

namespace Sys2Proof.Machine

/-- RSTAT is legal: the reserved bits are 0 and ERR is 0 to 5 or 15 (10_state.md R34). -/
abbrev State.StatusLegal (s : State) : Prop := rstatReserved s.rstat = 0#3 ∧ rstatErrLegal s.rstat = true

/-- No contract violation has been recorded (10_state.md R51). -/
abbrev State.NoViolation (s : State) : Prop := rstatCv s.rstat = false

/-- The idle bus after a STOP: SCL driven high, SDA released (40_bus_primitives.md R103). -/
def idlePair : LinePair := { scl := .h, sda := .z }

/-- The bus held inside a transaction: both lines driven low (70_reset_and_hazards.md R264). -/
def heldPair : LinePair := { scl := .l, sda := .l }

/-- Both lines released, as reset and BUSRST leave them (41_bus_recovery.md R140). -/
def releasedPair : LinePair := .released

/-- The host may issue the command on this pair without a contract violation (70_reset_and_hazards.md R254, R255, R257). -/
def hostMayIssue (p : LinePair) : Instr → Bool
  | .start _ _ => startReady p
  | .rstart _ _ => rstartReady p
  | .stop _ => stopReady p
  | .wrb _ _ => true
  | .rdb _ _ => true
  | .busrst _ => true
  | .temp _ => startReady p
  | .owrst _ _ => startReady p
  | .owcfg _ _ => startReady p
  | .owdet _ _ => startReady p
  | .owtrp _ _ _ => startReady p

end Sys2Proof.Machine
end

