-- ==== Sys2Proof/Certificates/Slice0/Obligations.lean ====
section
/-! DEFINITION. The statements for the provers. Each says in its docstring which rule of spec/ it formalises. The traces they
name (`startEvents` and so on) are written from the rules in Machine/Traces.lean, apart from the meanings; `after s ch es p
broken res err` is the state s after the events es on channel ch, ending with the pair p, with CV set where `broken`, and
with RES and ERR committed. It says the whole next state, so a statement that ends in it also says the frame.The event
counts and the postconditions on `M[c]` are marked "[derived: ...]" in the rules: they are the spec's own inferences, and the
statements about them have the basis 'derived'. -/

open Sys2Proof Sys2Proof.Machine

/-! Encoding (30_encoding.md). -/

/-- R84's three items on a word taken apart by arithmetic, apart from the decoder's own fields. -/
def Sys2Proof.Machine.illegalWord (w : Nat) : Prop :=
  11 ≤ w / 4096 ∨ w / 1024 % 4 = 3 ∨ w / 256 % 2 = 1 ∨
    (w / 512 % 2 = 1 ∧ w / 4096 ≠ 4 ∧ w / 4096 ≠ 10) ∨
    (w % 256 ≠ 0 ∧ (w / 4096 = 2 ∨ w / 4096 = 4 ∨ w / 4096 = 5 ∨ w / 4096 = 6)) ∨
    (128 ≤ w % 256 ∧ 7 ≤ w / 4096 ∧ w / 4096 ≤ 10)

/-- Decoding the word of a well-formed command gives the command back, with every operand (R80, R82, R83). -/
def Obligations.DecodeEncodeRoundTrip : Prop :=
  ∀ i : Instr, i.WellFormed → decode (encode i) = .ok i

/-- A word the decoder accepts is the encoding of what it decodes to, and that is well formed (R80, R83). -/
def Obligations.AcceptedWordIsItsEncoding : Prop :=
  ∀ (w : Word) (i : Instr), decode w = .ok i → encode i = w ∧ i.WellFormed

/-- R84: which words are illegal, and what a CMD write of one does: no event, no contribution changed, CV unchanged,
`finish(0x0000, ILLEGAL)` with ILLEGAL = 15. -/
def Obligations.IllegalWordsDoNothingButReport : Prop :=
  ∀ w : Word, ((∃ e, decode w = .error e) ↔ illegalWord w.toNat) ∧
    (illegalWord w.toNat → ∀ (s : State) (rest : List Input), s.inputs = .write .cmd w :: rest →
      ∃ r : Byte, step s = .next { s with inputs := rest, cmd := w, res := 0x0000#16, rstat := r } ∧
        rstatErr r = 15#4 ∧ rstatCv r = rstatCv s.rstat ∧ rstatReserved r = rstatReserved s.rstat)

/-- The decoder agrees with the match and mask table of R83: a word it accepts matches exactly the row of its mnemonic,
a word it rejects matches none. -/
def Obligations.DecoderAgreesWithMatchMaskTable : Prop :=
  ∀ w : Word,
    (∀ i, decode w = .ok i → (opcodeRows.filter (rowMatches w)).map (·.mnemonic) = [instrMnemonic i]) ∧
    (∀ e, decode w = .error e → opcodeRows.filter (rowMatches w) = [])

/-- The example lines of R88 (the spec's own inference, "derived: from rules R80 to R83"), their words and what the words decode
to, and the illegal examples. -/
def Obligations.SpecExampleWordsDecode : Prop :=
  (∀ x ∈ [("START 0, 0x91", 0x0091#16, Instr.start 0#2 0x91#8), ("RSTART 0, 0x31", 0x1031#16, .rstart 0#2 0x31#8),
      ("STOP 0", 0x2000#16, .stop 0#2), ("WRB 1, 0xA5", 0x34A5#16, .wrb 1#2 0xA5#8),
      ("RDB 0, NACK", 0x4200#16, .rdb 0#2 .nack), ("RDB 2, ACK", 0x4800#16, .rdb 2#2 .ack),
      ("BUSRST 0", 0x5000#16, .busrst 0#2), ("TEMP 0", 0x6000#16, .temp 0#2),
      ("OWRST 0, 0x18", 0x7018#16, .owrst 0#2 0x18#7), ("OWCFG 0, 0x18", 0x8018#16, .owcfg 0#2 0x18#7),
      ("OWDET 0, 0x18", 0x9018#16, .owdet 0#2 0x18#7), ("OWTRP 0, 1, 0x18", 0xA218#16, .owtrp 0#2 true 0x18#7)],
    assembleLine x.1.toList = some x.2.2 ∧ encode x.2.2 = x.2.1 ∧ decode x.2.1 = .ok x.2.2) ∧
  decode 0xB000#16 = .error (.noOperation 0xB#4) ∧ decode 0x0C00#16 = .error .channelThree ∧
  decode 0x2001#16 = .error .dataNotZero ∧ decode 0x0100#16 = .error .reservedBit ∧
  decode 0x7080#16 = .error .addressTopBit ∧ decode 0x0200#16 = .error .flagNotZero

/-- R86: the assembler never emits an illegal word. -/
def Obligations.AssemblerEmitsOnlyLegalWords : Prop :=
  ∀ (line : List Char) (i : Instr), assembleLine line = some i → i.WellFormed ∧ decode (encode i) = .ok i

/-- R87: each pseudo-instruction is exactly the command it expands to, operands out of range included. -/
def Obligations.PseudoInstructionsExpand : Prop :=
  ∀ c a7 : Nat,
    assemble .startw [c, a7] = assemble .start [c, (a7 <<< 1) ||| 0] ∧
    assemble .startr [c, a7] = assemble .start [c, (a7 <<< 1) ||| 1] ∧
    assemble .rstartr [c, a7] = assemble .rstart [c, (a7 <<< 1) ||| 1] ∧
    assemble .rstartw [c, a7] = assemble .rstart [c, (a7 <<< 1) ||| 0] ∧
    assemble .rda [c] = assemble .rdb [c, 0] ∧
    assemble .rdn [c] = assemble .rdb [c, 1] ∧
    assemble .owtrp0 [c, a7] = assemble .owtrp [c, 0, a7] ∧
    assemble .owtrp1 [c, a7] = assemble .owtrp [c, 1, a7]

/-- Every well-formed command has the line R86 gives it, and the line assembles to the command. -/
def Obligations.EveryCommandHasItsAssemblyLine : Prop :=
  ∀ i : Instr, i.WellFormed →
    assemble (disassemble i).1 (disassemble i).2 = some i ∧ asmOpText (disassemble i).1 = instrMnemonic i

/-- The address bytes the engine builds (R61, R82, R161), by arithmetic. -/
def Obligations.AddressBytesCarryAddressAndDirection : Prop :=
  (∀ (a7 : Addr7) (d : Bool), (addressByte a7 d).toNat = 2 * a7.toNat + d.toNat) ∧
  (∀ a7 : Addr7, writeAddress a7 = wAddr a7 ∧ readAddress a7 = rAddr a7) ∧
  (∀ (base : Addr7) (i : Nat), (tempAddress base i).toNat = 2 * ((base.toNat + i) % 128) + 1)

/-! Reset and the host (10_state.md, 70_reset_and_hazards.md). -/

/-- R250: what reset leaves; a reset as an action does the same to every register, emits no event and runs no command; and the
engine then waits: with no action of the host a step changes nothing. -/
def Obligations.ResetReleasesAndClears : Prop :=
  ((∀ (c : Channel) (l : Line), State.reset.line c l = .z) ∧ State.reset.res = 0x0000#16 ∧
    State.reset.rstat = 0x00#8 ∧ State.reset.cmd = 0x0000#16) ∧
  (∀ (s : State) (rest : List Input), s.inputs = .reset :: rest →
    ∃ t, step s = .next t ∧ (∀ (c : Channel) (l : Line), t.line c l = .z) ∧ t.res = 0x0000#16 ∧ t.rstat = 0x00#8 ∧
      t.cmd = 0x0000#16 ∧ t.trace = s.trace) ∧
  (∀ (history : List Event) (answers : List Bool),
    step { State.reset with history := history, answers := answers, inputs := [] } =
      .next { State.reset with history := history, answers := answers, inputs := [] })

/-- A reset as an action of the outside: the whole next state. That the trace so far, the answers and the host's later actions
stay is the model's choice (log 6). -/
def Obligations.ResetActionClearsEngine : Prop :=
  ∀ (s : State) (rest : List Input), s.inputs = .reset :: rest →
    step s = .next { State.reset with history := s.history, answers := s.answers, inputs := rest }

/-- A CMD write of a word that decodes runs exactly that command, with CMD holding the word (R32). The list of the host's
actions is the model's (log 4). -/
def Obligations.StepRunsDecodedCommand : Prop :=
  ∀ (s : State) (w : Word) (rest : List Input) (i : Instr), s.inputs = .write .cmd w :: rest → decode w = .ok i →
    step s = exec i { s with inputs := rest, cmd := w }

/-- The word the encoder gives a well-formed command runs that command in the very next step. -/
def Obligations.EncodedWordRunsNext : Prop :=
  ∀ (i : Instr) (s : State), i.WellFormed →
    step (s.withFetchWord 16 (encode i).toNat) = exec i { s with cmd := encode i }

/-- A CMD write starts exactly one command, the one its word is, and CMD reads back that word after it; nothing but a CMD write
and a reset changes CMD; reading CMD has no side effect; no command writes CMD (R32). That reads of RES and RSTAT have none
either is the model's inference (log 13), and that an action is taken off the host's list is the model's form (log 4). -/
def Obligations.CmdReadsBackLastWrite : Prop :=
  (∀ (s : State) (w : Word) (rest : List Input), s.inputs = .write .cmd w :: rest →
    ∃ t, step s = .next t ∧ hostRead .cmd t = w ∧ t.inputs = rest ∧
      (∀ i, decode w = .ok i → exec i { s with inputs := rest, cmd := w } = .next t)) ∧
  (∀ (s t : State), (∀ w, s.inputs.head? ≠ some (.write .cmd w)) → s.inputs.head? ≠ some .reset → step s = .next t →
    t.cmd = s.cmd) ∧
  (∀ (s : State) (r : HostReg) (rest : List Input), s.inputs = .read r :: rest → step s = .next { s with inputs := rest }) ∧
  (∀ (i : Instr) (s t : State), exec i s = .next t → t.cmd = s.cmd)

/-- Host writes of RES and RSTAT are ignored (R33, R34), a read of CMD has no side effect (R32), RSTAT reads as ERR, 0 and CV
(R34), and with nothing to do the engine holds every value (R232). That reads of RES and RSTAT have no side effect either is
the model's inference (log 13), and that an action is taken off the host's list is the model's form (log 4). -/
def Obligations.OtherHostActionsChangeNothing : Prop :=
  (∀ (s : State) (rest : List Input) (a : Input), s.inputs = a :: rest →
    (∃ v, a = .write .res v) ∨ (∃ v, a = .write .rstat v) ∨ (∃ r, a = .read r) →
    step s = .next { s with inputs := rest }) ∧
  (∀ s : State, s.inputs = [] → step s = .next s) ∧
  (∀ s : State, hostRead .res s = s.res ∧
    (hostRead .rstat s).toNat = (rstatErr s.rstat).toNat + 128 * (rstatCv s.rstat).toNat)

/-! The whole machine. -/

/-- R220: no command raises a trap; every command and every step ends in a next state, a command with a legal code in
ERR. -/
def Obligations.EveryCommandAndStepEnds : Prop :=
  (∀ (i : Instr) (s : State), ∃ t, exec i s = .next t ∧ rstatErrLegal t.rstat = true) ∧
  (∀ s : State, ∃ t, step s = .next t)

/-- A command term whose channel field is 3 ends as R84 item 2 has it: ILLEGAL, no event (log 9). -/
def Obligations.ChannelThreeIsIllegal : Prop :=
  ∀ (i : Instr) (s : State), ¬ i.WellFormed →
    exec i s = .next { s with res := 0x0000#16, rstat := rstatWithErr s.rstat .illegal }

/-- R44: a command reads and writes only `M[c]` of its own channel and emits only events tagged with it. "Reads": with other
contributions on the other channels it does the same and leaves those as they are. -/
def Obligations.CommandTouchesOnlyItsChannel : Prop :=
  ∀ (i : Instr) (s t : State) (ch : Channel), channelOf i.chField = some ch → exec i s = .next t →
    (∀ c, c ≠ ch → t.pair c = s.pair c) ∧
    (∃ es, t.trace = s.trace ++ es ∧ ∀ e ∈ es, eventChannel e = ch) ∧
    (∀ m : Lines, linesPair m ch = s.pair ch →
      exec i { s with lines := m } = .next { t with lines := linesWith m ch (t.pair ch) })

/-- The frame of every command, on every operand: CMD and the host's pending actions stay; RSTAT[6:4] stays; CV can only be
set; the trace only grows; each sample takes one pending answer (R32, R34, R36, R51, R66). -/
def Obligations.CommandFrame : Prop :=
  ∀ (i : Instr) (s t : State), exec i s = .next t →
    t.cmd = s.cmd ∧ t.inputs = s.inputs ∧ rstatReserved t.rstat = rstatReserved s.rstat ∧
    (rstatCv s.rstat = true → rstatCv t.rstat = true) ∧
    ∃ es, t.trace = s.trace ++ es ∧ t.answers = s.answers.drop (countSmp es)

/-- R64: every drive is followed at once by `Wait(c, 1)`, no sample is, and the only other waits are BUSRST's own, of
STRETCH_WAIT. -/
def Obligations.EveryDriveSettles : Prop :=
  ∀ (i : Instr) (s t : State) (es : List Event), exec i s = .next t → t.trace = s.trace ++ es →
    (∀ (pre : List Event) c l v (post : List Event), es = pre ++ Event.drv c l v :: post → post.head? = some (.wait c 1)) ∧
    (∀ (pre : List Event) c l b (post : List Event), es = pre ++ Event.smp c l b :: post → ∀ d, post.head? ≠ some (.wait d 1)) ∧
    (∀ (pre : List Event) c n (post : List Event), es = pre ++ Event.wait c n :: post →
      (n = 1 ∧ ∃ pre' l v, pre = pre' ++ [.drv c l v]) ∨ (n = 20000 ∧ ∃ f, i = .busrst f))

/-- R40: only `drv` writes a contribution: after a command each holds what the drives of the trace made of it, and between
commands each keeps its value. -/
def Obligations.OnlyDrivesWriteContributions : Prop :=
  (∀ (i : Instr) (s t : State) (es : List Event), exec i s = .next t → t.trace = s.trace ++ es →
    t.lines = es.foldl linesAfter s.lines) ∧
  (∀ (s t : State), (∀ w, s.inputs.head? ≠ some (.write .cmd w)) → s.inputs.head? ≠ some .reset → step s = .next t →
    t.lines = s.lines)

/-- R70 in the model's form (log 1): every sample of a command carries what the environment answers at its place in the
trace, a pending answer or the free `Config.env` of the history. -/
def Obligations.SamplesAreEnvironmentAnswers : Prop :=
  ∀ (i : Instr) (s t : State) (es : List Event), exec i s = .next t → t.trace = s.trace ++ es →
    ∀ (pre : List Event) c l b (post : List Event), es = pre ++ Event.smp c l b :: post → b = answerAfter s pre c l

/-- The pending answers stand for every environment (R70, log 1): for every function of the history there are answers with
which the command's samples are exactly that function's, and none is left over. -/
def Obligations.EveryEnvironmentIsRealised : Prop :=
  ∀ (env : List Event → Channel → Line → Bool) (i : Instr) (s : State),
    ∃ as t es, exec i { s with answers := as } = .next t ∧ t.trace = s.trace ++ es ∧ t.answers = [] ∧
      ∀ (pre : List Event) c l b (post : List Event), es = pre ++ Event.smp c l b :: post → b = env (pre.reverse ++ s.history) c l

/-- R71, the spec's own inference ("derived: from" R104, R105 and R140): the engine samples only released lines. Outside
BUSRST it samples only SDA; in BUSRST both lines are released at every sample. -/
def Obligations.OnlyReleasedLinesAreSampled : Prop :=
  ∀ (i : Instr) (s t : State) (es : List Event), exec i s = .next t → t.trace = s.trace ++ es →
    ∀ (pre : List Event) c l b (post : List Event), es = pre ++ Event.smp c l b :: post →
      pairLine (linesPair (pre.foldl linesAfter s.lines) c) l = .z ∧
      (l = .sda ∨ ∃ f, i = .busrst f) ∧
      ((∃ f, i = .busrst f) → linesPair (pre.foldl linesAfter s.lines) c = releasedPair)

/-- The invariant of RSTAT (R34): bits 6:4 are 0 and ERR is 0 to 5 or 15. Every step keeps it. -/
def Obligations.StatusStaysLegal : Prop :=
  ∀ s t : State, s.StatusLegal → step s = .next t → t.StatusLegal

/-- The invariant of RSTAT holds at reset (R34, R52). -/
def Obligations.ResetStatusIsLegal : Prop := State.reset.StatusLegal ∧ State.reset.NoViolation

/-- R51: the three checks, exactly; a check never changes a body's events; CV stays set until reset. -/
def Obligations.ContractBitRecordsViolations : Prop :=
  (∀ (c : Channel) (ab : Byte) (s : State),
    rstatCv (startBody c ab s).2.rstat = (rstatCv s.rstat || decide (s.line c .sda = .l)) ∧
    rstatCv (rstartBody c ab s).2.rstat = (rstatCv s.rstat || decide (s.line c .scl ≠ .l)) ∧
    rstatCv (stopBody c s).rstat = (rstatCv s.rstat || decide (s.line c .sda ≠ .l))) ∧
  (∀ (c : Channel) (ab : Byte) (s : State), ∃ a b : Bool,
    (startBody c ab s).2.trace = s.trace ++ startEvents c ab a ∧
    (rstartBody c ab s).2.trace = s.trace ++ rstartEvents c ab b ∧
    (stopBody c s).trace = s.trace ++ stopEvents c) ∧
  (∀ s t : State, step s = .next t → s.inputs.head? ≠ some .reset → rstatCv s.rstat = true → rstatCv t.rstat = true)

/-- R224: CV is a side record: with CV set beforehand every command does the same and commits the same RES and ERR, and CV
stays set. -/
def Obligations.ContractBitSteersNothing : Prop :=
  ∀ (i : Instr) (s t : State), exec i s = .next t →
    exec i { s with rstat := rstatWithCv s.rstat } = .next { t with rstat := rstatWithCv t.rstat }

/-- The host's duties R254, R255 and R257 are the only checks there are: a command sets CV exactly when the host may not issue
it on the pair it finds; no check inside a device protocol or BUSRST ever fires. -/
def Obligations.HostDutiesAreTheOnlyChecks : Prop :=
  ∀ (i : Instr) (s t : State) (ch : Channel), channelOf i.chField = some ch → exec i s = .next t →
    rstatCv t.rstat = (rstatCv s.rstat || !hostMayIssue (s.pair ch) i)

/-- What RES and ERR can hold after each command (R85's table). Two clauses are the spec's own inferences: that TEMP's reading is
a multiple of 8 is R160's ("derived: from rule R162"), and that RES = 1 exactly when ERR = OK after OWRST, OWCFG and OWDET is
R85's sentence marked "derived: from 43_onewire_bridge.md rules R181 to R183". -/
def Sys2Proof.Machine.resultAllowed : Instr → Word → ErrCode → Prop
  | .start _ _, r, e => e = .ok ∧ (r = 0x0000#16 ∨ r = 0x0001#16)
  | .rstart _ _, r, e => e = .ok ∧ (r = 0x0000#16 ∨ r = 0x0001#16)
  | .stop _, r, e => e = .ok ∧ r = 0x0000#16
  | .wrb _ _, r, e => e = .ok ∧ (r = 0x0000#16 ∨ r = 0x0001#16)
  | .rdb _ _, r, e => e = .ok ∧ r.toNat < 256
  | .busrst _, r, e =>
    (e = .ok ∧ r = 0x0000#16) ∨ (e = .busLockup ∧ (r = 0x0001#16 ∨ r = 0x0002#16 ∨ r = 0x0003#16))
  | .temp _, r, e => (e = .ok ∧ r.toNat % 8 = 0) ∨ (e = .noAck ∧ r = 0x0000#16)
  | .owrst _ _, r, e => (e = .ok ∧ r = 0x0001#16) ∨ ((e = .noAck ∨ e = .resetStatus) ∧ r = 0x0000#16)
  | .owcfg _ _, r, e => (e = .ok ∧ r = 0x0001#16) ∨ ((e = .noAck ∨ e = .verifyFail) ∧ r = 0x0000#16)
  | .owdet _ _, r, e =>
    (e = .ok ∧ r = 0x0001#16) ∨ ((e = .noAck ∨ e = .resetStatus ∨ e = .verifyFail) ∧ r = 0x0000#16)
  | .owtrp _ _ _, r, e => (e = .ok ∧ r.toNat < 256) ∨ ((e = .noAck ∨ e = .pollLimit) ∧ r = 0x0000#16)

/-- Every command leaves in RES and ERR one of the pairs that R85 and R221 allow it, narrowed by two of the spec's own inferences:
TEMP's reading is a multiple of 8 (R160, "derived: from rule R162"), and RES = 1 exactly when ERR = OK after OWRST, OWCFG and
OWDET (R85's sentence "derived: from 43_onewire_bridge.md rules R181 to R183"). -/
def Obligations.ResultsFollowTheTable : Prop :=
  ∀ (i : Instr) (s t : State), i.WellFormed → exec i s = .next t →
    ∃ e, rstatErr t.rstat = errNumber e ∧ resultAllowed i t.res e

/-- The pair each command ends with (the postconditions of R101 to R105, R140, R161, R180). -/
def Sys2Proof.Machine.finalPair : Instr → LinePair
  | .start _ _ => heldPair
  | .rstart _ _ => heldPair
  | .stop _ => idlePair
  | .wrb _ _ => heldPair
  | .rdb _ .ack => heldPair
  | .rdb _ .nack => idlePair
  | .busrst _ => releasedPair
  | .temp _ => idlePair
  | .owrst _ _ => idlePair
  | .owcfg _ _ => idlePair
  | .owdet _ _ => idlePair
  | .owtrp _ _ _ => idlePair

/-- The postcondition of every command on `M[c]` (the spec marks it "derived" from each command's pseudocode), whatever the
state before and whatever the environment answers. -/
def Obligations.EveryCommandEndsWithItsPair : Prop :=
  ∀ (i : Instr) (s t : State) (ch : Channel), channelOf i.chField = some ch → exec i s = .next t →
    t.pair ch = finalPair i

/-! The bit and byte level engine (40_bus_primitives.md). -/

/-- START (R101): the whole next state and the event counts, from any state. a is what the environment answers to the
acknowledgement sample. -/
def Obligations.StartCompletes : Prop :=
  ∀ (c : BitVec 2) (ch : Channel) (ab : Byte) (s : State), channelOf c = some ch →
    ∃ a : Bool, a = answerAfter s (startLead ch ab) ch .sda ∧
      exec (.start c ab) s = .next (after s ch (startEvents ch ab a) heldPair (decide (s.line ch .sda = .l))
        (if a then 0x0001#16 else 0x0000#16) .ok) ∧
      countDrv (startEvents ch ab a) = 32 ∧ countSmp (startEvents ch ab a) = 1 ∧ countWait 1 (startEvents ch ab a) = 32

/-- RSTART (R102): the whole next state and the event counts, from any state. -/
def Obligations.RstartCompletes : Prop :=
  ∀ (c : BitVec 2) (ch : Channel) (ab : Byte) (s : State), channelOf c = some ch →
    ∃ a : Bool, a = answerAfter s (rstartLead ch ab) ch .sda ∧
      exec (.rstart c ab) s = .next (after s ch (rstartEvents ch ab a) heldPair (decide (s.line ch .scl ≠ .l))
        (if a then 0x0001#16 else 0x0000#16) .ok) ∧
      countDrv (rstartEvents ch ab a) = 33 ∧ countSmp (rstartEvents ch ab a) = 1 ∧
      countWait 1 (rstartEvents ch ab a) = 33

/-- STOP (R103): the whole next state and the event counts, from any state. -/
def Obligations.StopCompletes : Prop :=
  ∀ (c : BitVec 2) (ch : Channel) (s : State), channelOf c = some ch →
    exec (.stop c) s = .next (after s ch (stopEvents ch) idlePair (decide (s.line ch .sda ≠ .l)) 0x0000#16 .ok) ∧
      countDrv (stopEvents ch) = 2 ∧ countSmp (stopEvents ch) = 0 ∧ countWait 1 (stopEvents ch) = 2

/-- WRB (R104): the whole next state and the event counts, from any state. -/
def Obligations.WrbCompletes : Prop :=
  ∀ (c : BitVec 2) (ch : Channel) (b : Byte) (s : State), channelOf c = some ch →
    ∃ a : Bool, a = answerAfter s (wrbLead ch b) ch .sda ∧
      exec (.wrb c b) s = .next (after s ch (wrbEvents ch b a) heldPair false
        (if a then 0x0001#16 else 0x0000#16) .ok) ∧
      countDrv (wrbEvents ch b a) = 29 ∧ countSmp (wrbEvents ch b a) = 1 ∧ countWait 1 (wrbEvents ch b a) = 29

/-- RDB (R105): the whole next state and the event counts, from any state: RES is the byte of the eight answers, the first its
bit 7. Where the pending answers are a byte's bits, they are read; a NACK ends with STOP. -/
def Obligations.RdbCompletes : Prop :=
  ∀ (c : BitVec 2) (ch : Channel) (k : Ack) (s : State), channelOf c = some ch →
    (∃ bits : List Bool, bits.length = 8 ∧
      exec (.rdb c k) s = .next (after s ch (rdbEvents ch k bits) (finalPair (.rdb c k)) false
        (BitVec.ofNat 16 (bitsNumber bits)) .ok) ∧
      countDrv (rdbEvents ch k bits) = (if k = .ack then 22 else 24) ∧ countSmp (rdbEvents ch k bits) = 8 ∧
      countWait 1 (rdbEvents ch k bits) = (if k = .ack then 22 else 24)) ∧
    (∀ (b : Byte) (rest : List Bool), s.answers = bitsMsb b ++ rest →
      exec (.rdb c k) s = .next (after s ch (rdbEvents ch k (bitsMsb b)) (finalPair (.rdb c k)) false
        (BitVec.ofNat 16 b.toNat) .ok))

/-- R106, the spec's own inference ("derived: from rule R104"): WRB presents its byte MSB first, one bit per clock pulse, SDA
constant while SCL is driven high, and released at the ninth pulse; a slave that records SDA at each SCL rise decodes the
byte. -/
def Obligations.WrbPresentsItsByte : Prop :=
  ∀ (c : BitVec 2) (ch : Channel) (b : Byte) (s t : State) (es : List Event), channelOf c = some ch →
    exec (.wrb c b) s = .next t → t.trace = s.trace ++ es →
    (∀ e ∈ sdaEdges ch (s.pair ch) es, e.scl ≠ .h) ∧
    sdaAtRises ch (s.pair ch) es = (bitsMsb b).map (fun x => if x then .h else .l) ++ [.z] ∧
    byteOfBits (((sdaAtRises ch (s.pair ch) es).take 8).map (fun v => decide (v = .h))) = b

/-- The SDA edges of R108, of a primitive that starts from the pair p. -/
def Sys2Proof.Machine.highEdges (p : LinePair) : Instr → List SdaEdge
  | .start _ _ => if p.sda = .l then [] else [{ scl := .h, before := p.sda, after := .l }]
  | .rstart _ _ =>
    (if p.scl = .h ∧ p.sda ≠ .z then [{ scl := .h, before := p.sda, after := .z }] else []) ++
      [{ scl := .h, before := .z, after := .l }]
  | .stop _ => if p.sda = .z then [] else [{ scl := .h, before := p.sda, after := .z }]
  | .wrb _ _ => []
  | .rdb _ .ack => []
  | .rdb _ .nack => [{ scl := .h, before := .l, after := .z }]
  | .busrst _ => []
  | .temp _ => []
  | .owrst _ _ => []
  | .owcfg _ _ => []
  | .owdet _ _ => []
  | .owtrp _ _ _ => []

/-- R108, the spec's own inference ("derived: from rules R101 to R105"): the SDA edges while `M[c].SCL` = H in the five
primitives are exactly START_body's pull, STOP_body's release and, on RSTART's violated precondition, its release; the pull
of a high SDA makes a START, the release of a low one a STOP. -/
def Obligations.EdgesWhileClockHigh : Prop :=
  ∀ (i : Instr) (s t : State) (ch : Channel) (es : List Event), channelOf i.chField = some ch →
    (∃ c x, i = .start c x) ∨ (∃ c x, i = .rstart c x) ∨ (∃ c, i = .stop c) ∨ (∃ c x, i = .wrb c x) ∨
      (∃ c k, i = .rdb c k) →
    exec i s = .next t → t.trace = s.trace ++ es →
    (sdaEdges ch (s.pair ch) es).filter (fun e => e.scl = .h) = highEdges (s.pair ch) i ∧
    conditions clockDrivenHigh ch (s.pair ch) es =
      (highEdges (s.pair ch) i).flatMap (fun e =>
        if e.after = .l then [.start] else if e.before = .l then [.stop] else [])

/-! Bus recovery (41_bus_recovery.md). The counts of R144 are the spec's own inference ("derived: from rule R140"). -/

/-- R142: BUSRST never drives a line high and, by the spec's own inference ("derived: from rule R140"), never samples a line it
drives low. -/
def Obligations.RecoveryNeverDrivesHigh : Prop :=
  ∀ (c : BitVec 2) (s t : State) (es : List Event), exec (.busrst c) s = .next t → t.trace = s.trace ++ es →
    (∀ ch l v, Event.drv ch l v ∈ es → v = .z ∨ v = .l) ∧
    (∀ (pre : List Event) ch l b (post : List Event), es = pre ++ Event.smp ch l b :: post →
      pairLine (linesPair (pre.foldl linesAfter s.lines) ch) l ≠ .l)

/-- SCL_STUCK (R140, R141 and the counts of R144, the spec's own inference): clock low right after the release: outcome 1, no
pulse. -/
def Obligations.RecoveryReportsSclStuck : Prop :=
  ∀ (c : BitVec 2) (ch : Channel) (s : State) (rest : List Bool), channelOf c = some ch → s.answers = false :: rest →
    exec (.busrst c) s = .next (after s ch (recoveryLead ch false) releasedPair false 0x0001#16 .busLockup) ∧
      countDrv (recoveryLead ch false) = 2 ∧ countSmp (recoveryLead ch false) = 1 ∧
      countWait 20000 (recoveryLead ch false) = 0

/-- The answers that serve a pulse after w waits: SDA 0, then w clock samples 0, then 1 (R140, R144). -/
def Sys2Proof.Machine.pulseAnswers (w : Nat) : List Bool := false :: (List.replicate w false ++ [true])

/-- The answers that leave the pulse loop: an SDA sample of 1, unless all 20 pulses are used (R140). -/
def Sys2Proof.Machine.exitAnswers (pulses : Nat) : List Bool := if pulses < 20 then [true] else []

/-- CLEARED after p pulses, pulse j's clock high after w_j waits (R140 and the counts of R144, the spec's own inference): the
whole next state and the counts, for every p of 0 to 20 and w_j of 0 to 19. -/
def Obligations.RecoveryClearsTheBus : Prop :=
  ∀ (c : BitVec 2) (ch : Channel) (s : State) (ws : List Nat) (rest : List Bool), channelOf c = some ch →
    ws.length ≤ 20 → (∀ w ∈ ws, w ≤ 19) →
    s.answers = true :: (ws.flatMap pulseAnswers ++ exitAnswers ws.length ++ true :: rest) →
    exec (.busrst c) s = .next (after s ch (clearedEvents ch ws) releasedPair false 0x0000#16 .ok) ∧
      countDrv (clearedEvents ch ws) = 4 + 2 * ws.length ∧
      countSmp (clearedEvents ch ws) = 2 + min (ws.length + 1) 20 + (ws.map (· + 1)).sum ∧
      countWait 20000 (clearedEvents ch ws) = ws.sum

/-- SDA_STUCK (R140, D18): the fresh SDA sample after the pulse loop reads 0, whether the loop ran out after 20 pulses or an SDA
sample of 1 ended it after p < 20. The whole next state and the counts. For 20 pulses the counts are R144's (the spec's own
inference, "derived: from rule R140"). R144 has no row for p < 20, and there they follow from R140's pseudocode. -/
def Obligations.RecoveryReportsSdaStuck : Prop :=
  ∀ (c : BitVec 2) (ch : Channel) (s : State) (ws : List Nat) (rest : List Bool), channelOf c = some ch →
    ws.length ≤ 20 → (∀ w ∈ ws, w ≤ 19) →
    s.answers = true :: (ws.flatMap pulseAnswers ++ exitAnswers ws.length ++ false :: rest) →
    exec (.busrst c) s = .next (after s ch (sdaStuckEvents ch ws) releasedPair false 0x0003#16 .busLockup) ∧
      countDrv (sdaStuckEvents ch ws) = 2 + 2 * ws.length ∧
      countSmp (sdaStuckEvents ch ws) = 2 + min (ws.length + 1) 20 + (ws.map (· + 1)).sum ∧
      countWait 20000 (sdaStuckEvents ch ws) = ws.sum

/-- SDA_CLOCK_STRETCH_TIMEOUT at pulse q = ws.length + 1 (R140, R141 and the counts of R144, the spec's own inference): the
clock stays low through the 20 samples after the pulse. -/
def Obligations.RecoveryReportsStretchTimeout : Prop :=
  ∀ (c : BitVec 2) (ch : Channel) (s : State) (ws : List Nat) (rest : List Bool), channelOf c = some ch →
    ws.length < 20 → (∀ w ∈ ws, w ≤ 19) →
    s.answers = true :: (ws.flatMap pulseAnswers ++ false :: (List.replicate 20 false ++ rest)) →
    exec (.busrst c) s = .next (after s ch (timeoutEvents ch ws) releasedPair false 0x0002#16 .busLockup) ∧
      countDrv (timeoutEvents ch ws) = 2 + 2 * (ws.length + 1) ∧
      countSmp (timeoutEvents ch ws) = 1 + (ws.length + 1) + (ws.map (· + 1)).sum + 20 ∧
      countWait 20000 (timeoutEvents ch ws) = ws.sum + 20

/-- BUSRST always ends within the bounds of R144 (the spec's own inference, "derived: from rule R140"), whatever the
environment answers: at most 44 drives, 422 samples and 381 stretch waits. -/
def Obligations.RecoveryIsBounded : Prop :=
  ∀ (c : BitVec 2) (s : State), ∃ t es, exec (.busrst c) s = .next t ∧ t.trace = s.trace ++ es ∧
    countDrv es ≤ 44 ∧ countSmp es ≤ 422 ∧ countWait 20000 es ≤ 381

/-- R143, in part the spec's own inference ("derived: from rules R101 and R140"): CLEARED ends with SDA pulled low and
released while SCL is released, a START and a STOP with nothing between them; no other step of the command drives SDA but the
first release; after it START's precondition holds. -/
def Obligations.ClearingSequenceIsStartThenStop : Prop :=
  ∀ (c : BitVec 2) (ch : Channel) (s t : State) (es : List Event), channelOf c = some ch →
    exec (.busrst c) s = .next t → t.trace = s.trace ++ es → t.res = 0x0000#16 →
    (∃ pre, es = pre ++ settled ch .sda .l ++ settled ch .sda .z ∧
      linesPair (pre.foldl linesAfter s.lines) ch = releasedPair ∧
      (∀ ch' v, Event.drv ch' .sda v ∈ pre → v = .z) ∧
      conditions clockReleased ch releasedPair (settled ch .sda .l ++ settled ch .sda .z) = [.start, .stop]) ∧
    t.pair ch = releasedPair ∧ startReady (t.pair ch) = true

/-! The temperature sensor (42_temperature.md). -/

/-- R163, the spec's own inference ("derived: from rule R162"): the decode is the mask of the three status bits, as a word
and as a signed number. -/
def Obligations.TempDecodeIsTheMask : Prop :=
  ∀ raw : Word, tempDecode raw = raw &&& 0xFFF8#16 ∧ sint16 (tempDecode raw) = sint16 (raw &&& 0xFFF8#16)

/-- The decode vectors of R165 (the spec's own inference, "derived: from rule R162"). -/
def Obligations.TempDecodeVectors : Prop :=
  ∀ x ∈ [(0x0000#16, 0x0000#16, (0 : Int)), (0x0007#16, 0x0000#16, 0), (0x0008#16, 0x0008#16, 8),
      (0x0C80#16, 0x0C80#16, 3200), (0x1900#16, 0x1900#16, 6400), (0x4B00#16, 0x4B00#16, 19200),
      (0x4B07#16, 0x4B00#16, 19200), (0x7FF8#16, 0x7FF8#16, 32760), (0x7FFF#16, 0x7FF8#16, 32760),
      (0x8000#16, 0x8000#16, -32768), (0x8007#16, 0x8000#16, -32768), (0xC000#16, 0xC000#16, -16384),
      (0xE480#16, 0xE480#16, -7040), (0xFE70#16, 0xFE70#16, -400), (0xFFF8#16, 0xFFF8#16, -8),
      (0xFFFF#16, 0xFFF8#16, -8)],
    tempDecode x.1 = x.2.1 ∧ sint16 x.2.1 = x.2.2

/-- What a reading is (R160, the multiple of 8 by the spec's own inference, "derived: from rule R162"): a multiple of 8 in
the signed 16-bit range, whatever the status bits, and so a multiple of 1/16 degree from -256 to +255.9375. -/
def Obligations.TempReadingsAreSixteenths : Prop :=
  ∀ raw : Word, tempDecode raw = tempDecode (raw &&& 0xFFF8#16) ∧
    (∃ n : Int, sint16 (tempDecode raw) = 8 * n ∧ tempDegrees (tempDecode raw) = (n : ℚ) / 16 ∧
      -4096 ≤ n ∧ n ≤ 4095)

/-- TEMP with the sensor at index i of 0 to 3 (R161, R162, R164): i addresses refused and closed with STOP, then the two
bytes, the first the high one; the whole next state and the counts. -/
def Obligations.TempReadsTheSensor : Prop :=
  ∀ (c : BitVec 2) (ch : Channel) (s : State) (i : Nat) (hi lo : Byte) (rest : List Bool), channelOf c = some ch →
    i < 4 → s.answers = List.replicate i true ++ false :: (bitsMsb hi ++ bitsMsb lo ++ rest) →
    exec (.temp c) s = .next (after s ch (tempFound ch Config.params.tempBase7 i hi lo) idlePair
      (decide (s.line ch .sda = .l)) (BitVec.ofNat 16 (256 * hi.toNat + lo.toNat) &&& 0xFFF8#16) .ok) ∧
    countDrv (tempFound ch Config.params.tempBase7 i hi lo) = 34 * i + 78 ∧
    countSmp (tempFound ch Config.params.tempBase7 i hi lo) = i + 17

/-- TEMP with no sensor (R161): four addresses refused, RES = 0, NO_ACK; the whole next state and the counts. -/
def Obligations.TempReportsNoSensor : Prop :=
  ∀ (c : BitVec 2) (ch : Channel) (s : State) (rest : List Bool), channelOf c = some ch →
    s.answers = List.replicate 4 true ++ rest →
    exec (.temp c) s = .next (after s ch ((List.range 4).flatMap (tempMiss ch Config.params.tempBase7)) idlePair
      (decide (s.line ch .sda = .l)) 0x0000#16 .noAck) ∧
    countDrv ((List.range 4).flatMap (tempMiss ch Config.params.tempBase7)) = 136 ∧
    countSmp ((List.range 4).flatMap (tempMiss ch Config.params.tempBase7)) = 4

/-! The 1-Wire bridge (43_onewire_bridge.md). -/

/-- OWRST whose three transfers are acknowledged and whose status byte is st (R181): RES and ERR by the mask and the pattern;
the whole next state and the counts. -/
def Obligations.OwrstReportsTheStatus : Prop :=
  ∀ (c : BitVec 2) (ch : Channel) (a7 : Addr7) (s : State) (st : Byte) (rest : List Bool), channelOf c = some ch →
    s.answers = List.replicate 3 false ++ (bitsMsb st ++ rest) →
    exec (.owrst c a7) s = .next (after s ch
      (bridgeOpen ch a7 [Config.params.cmdDrst] ++ rdbEvents ch .nack (bitsMsb st)) idlePair
      (decide (s.line ch .sda = .l))
      (if st &&& Config.params.rstMask = Config.params.rstPattern then 0x0001#16 else 0x0000#16)
      (if st &&& Config.params.rstMask = Config.params.rstPattern then .ok else .resetStatus)) ∧
    countDrv (bridgeOpen ch a7 [Config.params.cmdDrst] ++ rdbEvents ch .nack (bitsMsb st)) = 118 ∧
    countSmp (bridgeOpen ch a7 [Config.params.cmdDrst] ++ rdbEvents ch .nack (bitsMsb st)) = 11

/-- OWRST whose transfer j of 0 to 2 is the first not acknowledged (R180, R181): STOP, RES = 0, NO_ACK. -/
def Obligations.OwrstStopsAtTheFirstNack : Prop :=
  ∀ (c : BitVec 2) (ch : Channel) (a7 : Addr7) (s : State) (j : Nat) (rest : List Bool), channelOf c = some ch →
    j < 3 → s.answers = List.replicate j false ++ true :: rest →
    exec (.owrst c a7) s = .next (after s ch (bridgeNacked ch a7 [Config.params.cmdDrst] j) idlePair
      (decide (s.line ch .sda = .l)) 0x0000#16 .noAck)

/-- OWCFG whose four transfers are acknowledged and whose read-back is rb (R182): success exactly when rb is CONFIG_BYTE;
otherwise exactly one corrective OWRST whose own result is discarded (R180), RES = 0 and VERIFY_FAIL. -/
def Obligations.OwcfgVerifiesTheReadBack : Prop :=
  ∀ (c : BitVec 2) (ch : Channel) (a7 : Addr7) (s : State) (rb : Byte) (rest : List Bool), channelOf c = some ch →
    s.answers = List.replicate 4 false ++ (bitsMsb rb ++ rest) →
    ∃ es, es = bridgeOpen ch a7 [Config.params.cmdWcfg, Config.params.configByte] ++ rdbEvents ch .nack (bitsMsb rb) ∧
      countDrv es = 147 ∧ countSmp es = 12 ∧
      (rb = Config.params.configByte →
        exec (.owcfg c a7) s = .next (after s ch es idlePair (decide (s.line ch .sda = .l)) 0x0001#16 .ok)) ∧
      (rb ≠ Config.params.configByte →
        ∃ u, exec (.owrst c a7) (after s ch es idlePair (decide (s.line ch .sda = .l)) 0x0000#16 .verifyFail) = .next u ∧
          exec (.owcfg c a7) s = .next { u with res := 0x0000#16, rstat := rstatWithErr u.rstat .verifyFail })

/-- OWCFG whose transfer j of 0 to 3 is the first not acknowledged (R180, R182): STOP, then exactly one corrective OWRST whose
own result is discarded, RES = 0, NO_ACK. -/
def Obligations.OwcfgResetsAfterANack : Prop :=
  ∀ (c : BitVec 2) (ch : Channel) (a7 : Addr7) (s : State) (j : Nat) (rest : List Bool), channelOf c = some ch →
    j < 4 → s.answers = List.replicate j false ++ true :: rest →
    ∃ u, exec (.owrst c a7) (after s ch
        (bridgeNacked ch a7 [Config.params.cmdWcfg, Config.params.configByte] j) idlePair
        (decide (s.line ch .sda = .l)) 0x0000#16 .noAck) = .next u ∧
      exec (.owcfg c a7) s = .next { u with res := 0x0000#16, rstat := rstatWithErr u.rstat .noAck }

/-- OWDET (R183): OWRST, and then OWCFG only if it succeeded; a failed reset is the whole command. -/
def Obligations.OwdetIsResetThenConfig : Prop :=
  ∀ (c : BitVec 2) (a7 : Addr7) (s : State), c ≠ 3#2 →
    ∃ u v, exec (.owrst c a7) s = .next u ∧ exec (.owcfg c a7) u = .next v ∧
      (rstatErr u.rstat = errNumber .ok → exec (.owdet c a7) s = .next v) ∧
      (rstatErr u.rstat ≠ errNumber .ok → exec (.owdet c a7) s = .next u)

/-- OWTRP whose four transfers are acknowledged, whose first p - 1 polls show BUSY and whose poll p does not, for every p of 1
to 200 (R184): RES is the final byte f, not the last poll and not re-checked; the whole next state and the counts. -/
def Obligations.OwtrpReturnsTheFinalStatus : Prop :=
  ∀ (c : BitVec 2) (ch : Channel) (dir : Bool) (a7 : Addr7) (s : State) (busy : List Byte) (clear f : Byte)
    (rest : List Bool), channelOf c = some ch → busy.length < 200 → (∀ b ∈ busy, b.getLsbD 0 = true) →
    clear.getLsbD 0 = false →
    s.answers = List.replicate 4 false ++ (busy.flatMap bitsMsb ++ bitsMsb clear ++ bitsMsb f ++ rest) →
    ∃ es, es = bridgeOpen ch a7 [Config.params.cmd1wt, if dir then 0x80#8 else 0x00#8] ++
        (busy ++ [clear]).flatMap (fun b => rdbEvents ch .ack (bitsMsb b)) ++ rdbEvents ch .nack (bitsMsb f) ∧
      exec (.owtrp c dir a7) s = .next (after s ch es idlePair (decide (s.line ch .sda = .l))
        (BitVec.ofNat 16 f.toNat) .ok) ∧
      countDrv es = 123 + 22 * (busy.length + 1) + 24 ∧ countSmp es = 4 + 8 * (busy.length + 1) + 8

/-- OWTRP whose 200 polls all show BUSY (R184): the final byte is still read, then exactly one corrective OWRST whose own
result is discarded (R180), RES = 0, POLL_LIMIT. -/
def Obligations.OwtrpReportsThePollLimit : Prop :=
  ∀ (c : BitVec 2) (ch : Channel) (dir : Bool) (a7 : Addr7) (s : State) (busy : List Byte) (f : Byte)
    (rest : List Bool), channelOf c = some ch → busy.length = 200 → (∀ b ∈ busy, b.getLsbD 0 = true) →
    s.answers = List.replicate 4 false ++ (busy.flatMap bitsMsb ++ bitsMsb f ++ rest) →
    ∃ u, exec (.owrst c a7) (after s ch
        (bridgeOpen ch a7 [Config.params.cmd1wt, if dir then 0x80#8 else 0x00#8] ++
          busy.flatMap (fun b => rdbEvents ch .ack (bitsMsb b)) ++ rdbEvents ch .nack (bitsMsb f)) idlePair
        (decide (s.line ch .sda = .l)) 0x0000#16 .pollLimit) = .next u ∧
      exec (.owtrp c dir a7) s = .next { u with res := 0x0000#16, rstat := rstatWithErr u.rstat .pollLimit }

/-- OWTRP whose transfer j of 0 to 3 is the first not acknowledged (R180, R184): STOP and no reset, RES = 0, NO_ACK. -/
def Obligations.OwtrpStopsAtTheFirstNack : Prop :=
  ∀ (c : BitVec 2) (ch : Channel) (dir : Bool) (a7 : Addr7) (s : State) (j : Nat) (rest : List Bool),
    channelOf c = some ch → j < 4 → s.answers = List.replicate j false ++ true :: rest →
    exec (.owtrp c dir a7) s = .next (after s ch
      (bridgeNacked ch a7 [Config.params.cmd1wt, if dir then 0x80#8 else 0x00#8] j) idlePair
      (decide (s.line ch .sda = .l)) 0x0000#16 .noAck)

/-- OWTRP always ends, whatever the environment answers, with no more drives and samples than the four transfers, 201 status
reads and one OWRST have: what R185 (the spec's own inference, "derived: from rule R184") bounds, stated through the counts of
drives and samples and not as numbers of reads. -/
def Obligations.TripletIsBounded : Prop :=
  ∀ (c : BitVec 2) (dir : Bool) (a7 : Addr7) (s : State), ∃ t es, exec (.owtrp c dir a7) s = .next t ∧
    t.trace = s.trace ++ es ∧ countDrv es ≤ 123 + 22 * 200 + 24 + 118 ∧ countSmp es ≤ 4 + 8 * 201 + 11

/-- The host can write OWRST out with primitives (95_test_vectors.md P3): START, WRB, RSTART and RDB with NACK, each
acknowledged, leave the state of OWRST but for RES and ERR, which OWRST takes from the byte read. -/
def Obligations.OwrstIsFourPrimitives : Prop :=
  ∀ (c : BitVec 2) (a7 : Addr7) (s s1 s2 s3 s4 : State), c ≠ 3#2 →
    exec (.start c (wAddr a7)) s = .next s1 → s1.res = 0x0000#16 →
    exec (.wrb c Config.params.cmdDrst) s1 = .next s2 → s2.res = 0x0000#16 →
    exec (.rstart c (rAddr a7)) s2 = .next s3 → s3.res = 0x0000#16 →
    exec (.rdb c .nack) s3 = .next s4 →
    exec (.owrst c a7) s = .next (
      if BitVec.ofNat 8 s4.res.toNat &&& Config.params.rstMask = Config.params.rstPattern then
        { s4 with res := 0x0001#16, rstat := rstatWithErr s4.rstat .ok }
      else { s4 with res := 0x0000#16, rstat := rstatWithErr s4.rstat .resetStatus })
end

