-- ==== Sys2Proof/Laws/State.lean ====
section
/-! SUPPORT. The small lemmas of the state: what each update leaves in each field, and the laws of the line registers. -/

namespace Sys2Proof.Machine

/-! Line pairs and line registers. -/

@[simp] theorem pairLine_pairSet_same (p : LinePair) (l : Line) (v : Drive) : pairLine (pairSet p l v) l = v := by
  cases l <;> rfl

theorem pairLine_pairSet_other (p : LinePair) {l l' : Line} (h : l' ≠ l) (v : Drive) :
    pairLine (pairSet p l v) l' = pairLine p l' := by
  cases l <;> cases l' <;> first | rfl | exact absurd rfl h

@[simp] theorem pairSet_scl (p : LinePair) (v : Drive) : pairSet p .scl v = { p with scl := v } := rfl

@[simp] theorem pairSet_sda (p : LinePair) (v : Drive) : pairSet p .sda v = { p with sda := v } := rfl

@[simp] theorem linesPair_linesWith_same (m : Lines) (c : Channel) (p : LinePair) :
    linesPair (linesWith m c p) c = p := by
  cases c <;> rfl

theorem linesPair_linesWith_other (m : Lines) {c c' : Channel} (h : c' ≠ c) (p : LinePair) :
    linesPair (linesWith m c p) c' = linesPair m c' := by
  cases c <;> cases c' <;> first | rfl | exact absurd rfl h

@[simp] theorem linesWith_linesWith (m : Lines) (c : Channel) (p q : LinePair) :
    linesWith (linesWith m c p) c q = linesWith m c q := by
  cases c <;> rfl

@[simp] theorem linesWith_linesPair (m : Lines) (c : Channel) : linesWith m c (linesPair m c) = m := by
  cases c <;> rfl

/-! What each operation leaves in each field. -/

@[simp] theorem emit_lines (e : Event) (s : State) : (emit e s).lines = s.lines := rfl
@[simp] theorem emit_cmd (e : Event) (s : State) : (emit e s).cmd = s.cmd := rfl
@[simp] theorem emit_res (e : Event) (s : State) : (emit e s).res = s.res := rfl
@[simp] theorem emit_rstat (e : Event) (s : State) : (emit e s).rstat = s.rstat := rfl
@[simp] theorem emit_history (e : Event) (s : State) : (emit e s).history = e :: s.history := rfl
@[simp] theorem emit_answers (e : Event) (s : State) : (emit e s).answers = s.answers := rfl
@[simp] theorem emit_inputs (e : Event) (s : State) : (emit e s).inputs = s.inputs := rfl

@[simp] theorem wait_lines (c : Channel) (n : Nat) (s : State) : (wait c n s).lines = s.lines := rfl
@[simp] theorem wait_cmd (c : Channel) (n : Nat) (s : State) : (wait c n s).cmd = s.cmd := rfl
@[simp] theorem wait_res (c : Channel) (n : Nat) (s : State) : (wait c n s).res = s.res := rfl
@[simp] theorem wait_rstat (c : Channel) (n : Nat) (s : State) : (wait c n s).rstat = s.rstat := rfl
@[simp] theorem wait_history (c : Channel) (n : Nat) (s : State) :
    (wait c n s).history = .wait c n :: s.history := rfl
@[simp] theorem wait_answers (c : Channel) (n : Nat) (s : State) : (wait c n s).answers = s.answers := rfl
@[simp] theorem wait_inputs (c : Channel) (n : Nat) (s : State) : (wait c n s).inputs = s.inputs := rfl

@[simp] theorem drv_lines (c : Channel) (l : Line) (v : Drive) (s : State) :
    (drv c l v s).lines = linesWith s.lines c (pairSet (s.pair c) l v) := rfl
@[simp] theorem drv_cmd (c : Channel) (l : Line) (v : Drive) (s : State) : (drv c l v s).cmd = s.cmd := rfl
@[simp] theorem drv_res (c : Channel) (l : Line) (v : Drive) (s : State) : (drv c l v s).res = s.res := rfl
@[simp] theorem drv_rstat (c : Channel) (l : Line) (v : Drive) (s : State) : (drv c l v s).rstat = s.rstat := rfl
@[simp] theorem drv_history (c : Channel) (l : Line) (v : Drive) (s : State) :
    (drv c l v s).history = .wait c 1 :: .drv c l v :: s.history := rfl
@[simp] theorem drv_answers (c : Channel) (l : Line) (v : Drive) (s : State) :
    (drv c l v s).answers = s.answers := rfl
@[simp] theorem drv_inputs (c : Channel) (l : Line) (v : Drive) (s : State) : (drv c l v s).inputs = s.inputs := rfl

@[simp] theorem smp_bit (c : Channel) (l : Line) (s : State) :
    (smp c l s).1 = nextAnswer s.answers s.history c l := rfl
@[simp] theorem smp_lines (c : Channel) (l : Line) (s : State) : (smp c l s).2.lines = s.lines := rfl
@[simp] theorem smp_cmd (c : Channel) (l : Line) (s : State) : (smp c l s).2.cmd = s.cmd := rfl
@[simp] theorem smp_res (c : Channel) (l : Line) (s : State) : (smp c l s).2.res = s.res := rfl
@[simp] theorem smp_rstat (c : Channel) (l : Line) (s : State) : (smp c l s).2.rstat = s.rstat := rfl
@[simp] theorem smp_history (c : Channel) (l : Line) (s : State) :
    (smp c l s).2.history = .smp c l (nextAnswer s.answers s.history c l) :: s.history := rfl
@[simp] theorem smp_answers (c : Channel) (l : Line) (s : State) : (smp c l s).2.answers = s.answers.tail := rfl
@[simp] theorem smp_inputs (c : Channel) (l : Line) (s : State) : (smp c l s).2.inputs = s.inputs := rfl

@[simp] theorem finish_lines (w : Word) (e : ErrCode) (s : State) : (finish w e s).lines = s.lines := rfl
@[simp] theorem finish_cmd (w : Word) (e : ErrCode) (s : State) : (finish w e s).cmd = s.cmd := rfl
@[simp] theorem finish_res (w : Word) (e : ErrCode) (s : State) : (finish w e s).res = w := rfl
@[simp] theorem finish_rstat (w : Word) (e : ErrCode) (s : State) :
    (finish w e s).rstat = rstatWithErr s.rstat e := rfl
@[simp] theorem finish_history (w : Word) (e : ErrCode) (s : State) : (finish w e s).history = s.history := rfl
@[simp] theorem finish_answers (w : Word) (e : ErrCode) (s : State) : (finish w e s).answers = s.answers := rfl
@[simp] theorem finish_inputs (w : Word) (e : ErrCode) (s : State) : (finish w e s).inputs = s.inputs := rfl

theorem checkContract_fields (h : Bool) (s : State) :
    (checkContract h s).lines = s.lines ∧ (checkContract h s).cmd = s.cmd ∧ (checkContract h s).res = s.res ∧
      (checkContract h s).history = s.history ∧ (checkContract h s).answers = s.answers ∧
      (checkContract h s).inputs = s.inputs := by
  cases h <;> exact ⟨rfl, rfl, rfl, rfl, rfl, rfl⟩

@[simp] theorem checkContract_rstat (h : Bool) (s : State) :
    (checkContract h s).rstat = if h then s.rstat else rstatWithCv s.rstat := by
  cases h <;> rfl

/-! The trace, oldest first. -/

@[simp] theorem trace_drv (c : Channel) (l : Line) (v : Drive) (s : State) :
    (drv c l v s).trace = s.trace ++ [.drv c l v, .wait c 1] := by
  simp [State.trace]

@[simp] theorem trace_smp (c : Channel) (l : Line) (s : State) :
    (smp c l s).2.trace = s.trace ++ [.smp c l (nextAnswer s.answers s.history c l)] := by
  simp [State.trace]

@[simp] theorem trace_wait (c : Channel) (n : Nat) (s : State) : (wait c n s).trace = s.trace ++ [.wait c n] := by
  simp [State.trace]

@[simp] theorem trace_finish (w : Word) (e : ErrCode) (s : State) : (finish w e s).trace = s.trace := rfl

/-! The bits of RSTAT. -/

@[simp] theorem rstatErr_withErr (r : Byte) (e : ErrCode) : rstatErr (rstatWithErr r e) = errNumber e := by
  revert r; cases e <;> decide

@[simp] theorem rstatCv_withErr (r : Byte) (e : ErrCode) : rstatCv (rstatWithErr r e) = rstatCv r := by
  revert r; cases e <;> decide

@[simp] theorem rstatReserved_withErr (r : Byte) (e : ErrCode) :
    rstatReserved (rstatWithErr r e) = rstatReserved r := by
  revert r; cases e <;> decide

@[simp] theorem rstatCv_withCv (r : Byte) : rstatCv (rstatWithCv r) = true := by
  revert r; decide

@[simp] theorem rstatErr_withCv (r : Byte) : rstatErr (rstatWithCv r) = rstatErr r := by
  revert r; decide

@[simp] theorem rstatReserved_withCv (r : Byte) : rstatReserved (rstatWithCv r) = rstatReserved r := by
  revert r; decide

theorem rstatWithCv_idem (r : Byte) : rstatWithCv (rstatWithCv r) = rstatWithCv r := by
  revert r; decide

theorem rstatWithErr_withCv (r : Byte) (e : ErrCode) :
    rstatWithErr (rstatWithCv r) e = rstatWithCv (rstatWithErr r e) := by
  revert r; cases e <;> decide

theorem rstatWithErr_withErr (r : Byte) (e e' : ErrCode) :
    rstatWithErr (rstatWithErr r e) e' = rstatWithErr r e' := by
  have h : (errNumber e).setWidth 8 &&& 0xF0#8 = 0#8 := by cases e <;> decide
  have keep : (r &&& 0xF0#8 ||| (errNumber e).setWidth 8) &&& 0xF0#8 = r &&& 0xF0#8 := by
    rw [BitVec.and_or_distrib_right, h, BitVec.and_assoc]; simp
  simp only [rstatWithErr, keep]

theorem rstatErrLegal_withErr (r : Byte) (e : ErrCode) : rstatErrLegal (rstatWithErr r e) = true := by
  cases e <;> simp [rstatErrLegal, errNumber]

theorem rstatErrLegal_withCv (r : Byte) : rstatErrLegal (rstatWithCv r) = rstatErrLegal r := by
  simp [rstatErrLegal]

end Sys2Proof.Machine
end

