-- ==== Sys2Proof/Laws/Ops.lean ====
section
/-! SUPPORT. Each line primitive said once in terms of its trace (`ran`), and how traces compose. -/

namespace Sys2Proof.Machine

@[simp] theorem ran_pair (s : State) (c : Channel) (es : List Event) (p : LinePair) (b : Bool) :
    (ran s c es p b).pair c = p := by
  simp [State.pair, ran]

@[simp] theorem ran_cmd (s : State) (c : Channel) (es : List Event) (p : LinePair) (b : Bool) :
    (ran s c es p b).cmd = s.cmd := rfl

@[simp] theorem ran_res (s : State) (c : Channel) (es : List Event) (p : LinePair) (b : Bool) :
    (ran s c es p b).res = s.res := rfl

@[simp] theorem ran_inputs (s : State) (c : Channel) (es : List Event) (p : LinePair) (b : Bool) :
    (ran s c es p b).inputs = s.inputs := rfl

@[simp] theorem ran_lines (s : State) (c : Channel) (es : List Event) (p : LinePair) (b : Bool) :
    (ran s c es p b).lines = linesWith s.lines c p := rfl

@[simp] theorem ran_rstat (s : State) (c : Channel) (es : List Event) (p : LinePair) (b : Bool) :
    (ran s c es p b).rstat = if b then rstatWithCv s.rstat else s.rstat := rfl

@[simp] theorem ran_history (s : State) (c : Channel) (es : List Event) (p : LinePair) (b : Bool) :
    (ran s c es p b).history = es.reverse ++ s.history := rfl

@[simp] theorem ran_answers (s : State) (c : Channel) (es : List Event) (p : LinePair) (b : Bool) :
    (ran s c es p b).answers = s.answers.drop (countSmp es) := rfl

@[simp] theorem ran_trace (s : State) (c : Channel) (es : List Event) (p : LinePair) (b : Bool) :
    (ran s c es p b).trace = s.trace ++ es := by
  simp [State.trace]

@[simp] theorem countSmp_append (es es' : List Event) : countSmp (es ++ es') = countSmp es + countSmp es' := by
  simp [countSmp]

@[simp] theorem countSmp_nil : countSmp [] = 0 := rfl

@[simp] theorem countSmp_drv (c : Channel) (l : Line) (v : Drive) (es : List Event) :
    countSmp (.drv c l v :: es) = countSmp es := rfl

@[simp] theorem countSmp_smp (c : Channel) (l : Line) (b : Bool) (es : List Event) :
    countSmp (.smp c l b :: es) = countSmp es + 1 :=
  List.countP_cons_of_pos rfl

@[simp] theorem countSmp_wait (c : Channel) (n : Nat) (es : List Event) :
    countSmp (.wait c n :: es) = countSmp es := rfl

@[simp] theorem countSmp_settled (c : Channel) (l : Line) (v : Drive) : countSmp (settled c l v) = 0 := rfl

/-- The state itself is what no event leaves. -/
theorem ran_none (s : State) (c : Channel) : ran s c [] (s.pair c) false = s := by
  simp [ran, State.pair]

/-- Traces compose: the events append, the last pair stays, either breach of contract counts. -/
@[simp] theorem ran_ran (s : State) (c : Channel) (es es' : List Event) (p p' : LinePair) (b b' : Bool) :
    ran (ran s c es p b) c es' p' b' = ran s c (es ++ es') p' (b || b') := by
  cases b <;> cases b' <;> simp [ran, rstatWithCv_idem]

/-- The answer after a trace, seen from the state before it. -/
@[simp] theorem answerAfter_ran (s : State) (c c' : Channel) (es es' : List Event) (p : LinePair) (b : Bool) (l : Line) :
    answerAfter (ran s c es p b) es' c' l = answerAfter s (es ++ es') c' l := by
  simp [answerAfter]

/-- `drv` in terms of its trace. -/
theorem drv_eq_ran (c : Channel) (l : Line) (v : Drive) (s : State) :
    drv c l v s = ran s c (settled c l v) (pairSet (s.pair c) l v) false := rfl

/-- `wait` in terms of its trace. -/
theorem wait_eq_ran (c : Channel) (n : Nat) (s : State) :
    wait c n s = ran s c [.wait c n] (s.pair c) false := by
  simp [wait, emit, ran, State.pair]

/-- `smp` in terms of its trace. -/
theorem smp_eq_ran (c : Channel) (l : Line) (s : State) :
    smp c l s = (answerAfter s [] c l, ran s c [.smp c l (answerAfter s [] c l)] (s.pair c) false) := by
  simp [smp, emit, ran, answerAfter, State.pair]

/-- A contract check in terms of its trace: no event, and CV set where the precondition fails. -/
theorem checkContract_eq_ran (h : Bool) (c : Channel) (s : State) :
    checkContract h s = ran s c [] (s.pair c) (!h) := by
  cases h <;> simp [checkContract, ran, State.pair]

/-- Three primitives on a state that is already in terms of its trace. -/
theorem drv_ran (s : State) (c : Channel) (es : List Event) (p : LinePair) (b : Bool) (l : Line) (v : Drive) :
    drv c l v (ran s c es p b) = ran s c (es ++ settled c l v) (pairSet p l v) b := by
  simp [drv_eq_ran]

theorem wait_ran (s : State) (c : Channel) (es : List Event) (p : LinePair) (b : Bool) (n : Nat) :
    wait c n (ran s c es p b) = ran s c (es ++ [.wait c n]) p b := by
  simp [wait_eq_ran]

theorem smp_ran (s : State) (c : Channel) (es : List Event) (p : LinePair) (b : Bool) (l : Line) :
    smp c l (ran s c es p b) =
      (answerAfter s es c l, ran s c (es ++ [.smp c l (answerAfter s es c l)]) p b) := by
  simp [smp_eq_ran]

theorem checkContract_ran (s : State) (c : Channel) (es : List Event) (p : LinePair) (b h : Bool) :
    checkContract h (ran s c es p b) = ran s c es p (b || !h) := by
  rw [checkContract_eq_ran h c]; simp

/-- Where answers are pending, they are what the environment answers. -/
theorem answerAfter_pending (s : State) (es : List Event) (c : Channel) (l : Line) (as rest : List Bool) (b : Bool)
    (h : s.answers = as ++ b :: rest) (n : countSmp es = as.length) : answerAfter s es c l = b := by
  simp [answerAfter, h, n, nextAnswer]

/-- A command on a legal channel is its body. -/
theorem onChannel_some {c : BitVec 2} {ch : Channel} (h : channelOf c = some ch) (s : State) (body : Channel → State) :
    onChannel c s body = .next (body ch) := by
  simp [onChannel, h]

/-- A command on channel 3 is illegal. -/
theorem onChannel_none {c : BitVec 2} (h : channelOf c = none) (s : State) (body : Channel → State) :
    onChannel c s body = .next (illegalCommand s) := by
  simp [onChannel, h]

/-- Exactly the field value 3 names no channel. -/
theorem channelOf_none_iff (c : BitVec 2) : channelOf c = none ↔ c = 3#2 := by
  revert c; decide

theorem channelOf_channelField (ch : Channel) : channelOf (channelField ch) = some ch := by
  cases ch <;> rfl

theorem channelField_of_channelOf {c : BitVec 2} {ch : Channel} (h : channelOf c = some ch) : channelField ch = c := by
  revert c; cases ch <;> decide

end Sys2Proof.Machine
end

