-- ==== Sys2Proof/Laws/Primitives.lean ====
section
/-! SUPPORT. What each body of the bit and byte level engine does, in terms of its trace (40_bus_primitives.md R101 to
R105). -/

namespace Sys2Proof.Machine

theorem writeBit_ran (s : State) (c : Channel) (es : List Event) (x : Drive) (br b : Bool) :
    writeBit c b (ran s c es { scl := .l, sda := x } br) =
      ran s c (es ++ writeCycle c b) { scl := .l, sda := bitDrive b } br := by
  simp [writeBit, drv_ran, writeCycle, bitDrive]

/-- The bits n-1 down to 0 of a byte, as WRB writes them. -/
theorem writeBits_ran (s : State) (c : Channel) (byte : Byte) (br : Bool) :
    ∀ (n : Nat) (es : List Event) (x : Drive),
      writeBits c byte n (ran s c es { scl := .l, sda := x } br) =
        ran s c (es ++ ((List.range n).reverse.map byte.getLsbD).flatMap (writeCycle c))
          { scl := .l, sda := if n = 0 then x else bitDrive (byte.getLsbD 0) } br
  | 0, es, x => by simp [writeBits]
  | n + 1, es, x => by
    rw [writeBits, writeBit_ran, writeBits_ran s c byte br n]
    by_cases h : n = 0 <;> simp [List.range_succ, h]

theorem bitsMsb_eq (b : Byte) : bitsMsb b = (List.range 8).reverse.map b.getLsbD := rfl

/-- WRB_body on a state in terms of its trace: the byte MSB first, one sample, both lines low (R104). -/
theorem wrbBody_ran (s : State) (c : Channel) (es : List Event) (p : LinePair) (br : Bool) (b : Byte) :
    wrbBody c b (ran s c es p br) =
      let a := answerAfter s (es ++ wrbLead c b) c .sda
      (ackOfBit a, ran s c (es ++ wrbEvents c b a) { scl := .l, sda := .l } br) := by
  simp only [wrbBody, drv_ran, pairSet_scl, writeBits_ran, sampleAck, smp_ran, pairSet_sda]
  simp [wrbLead, wrbEvents, bitsMsb_eq, List.append_assoc]

/-- START_body on a state in terms of its trace (R101). -/
theorem startBody_ran (s : State) (c : Channel) (es : List Event) (p : LinePair) (br : Bool) (ab : Byte) :
    startBody c ab (ran s c es p br) =
      let a := answerAfter s (es ++ startLead c ab) c .sda
      (ackOfBit a, ran s c (es ++ startEvents c ab a) { scl := .l, sda := .l } (br || !startReady p)) := by
  simp only [startBody, ran_pair, checkContract_ran, drv_ran, pairSet_scl, pairSet_sda, wrbBody_ran]
  simp [startLead, startEvents, List.append_assoc]

/-- RSTART_body on a state in terms of its trace (R102): START_body's own check never fires in it. -/
theorem rstartBody_ran (s : State) (c : Channel) (es : List Event) (p : LinePair) (br : Bool) (ab : Byte) :
    rstartBody c ab (ran s c es p br) =
      let a := answerAfter s (es ++ rstartLead c ab) c .sda
      (ackOfBit a, ran s c (es ++ rstartEvents c ab a) { scl := .l, sda := .l } (br || !rstartReady p)) := by
  simp only [rstartBody, ran_pair, checkContract_ran, drv_ran, pairSet_sda, startBody_ran]
  simp [rstartLead, rstartEvents, startReady, List.append_assoc]

/-- STOP_body on a state in terms of its trace (R103). -/
theorem stopBody_ran (s : State) (c : Channel) (es : List Event) (p : LinePair) (br : Bool) :
    stopBody c (ran s c es p br) =
      ran s c (es ++ stopEvents c) { scl := .h, sda := .z } (br || !stopReady p) := by
  simp only [stopBody, ran_pair, checkContract_ran, drv_ran, pairSet_scl, pairSet_sda]
  simp [stopEvents, List.append_assoc]

/-- The n sampling cycles of RDB_body after the events es: the bits the environment answers, first sampled first. -/
def readAnswers (s : State) (c : Channel) : Nat → List Event → List Bool
  | 0, _ => []
  | n + 1, es =>
    let a := answerAfter s (es ++ settled c .scl .h) c .sda
    a :: readAnswers s c n (es ++ readCycle c a)

theorem readAnswers_length (s : State) (c : Channel) :
    ∀ (n : Nat) (es : List Event), (readAnswers s c n es).length = n
  | 0, _ => rfl
  | n + 1, es => by simp [readAnswers, readAnswers_length s c n]

/-- The register after bits n-1 down to 0 are set to the given bits. -/
def withBits : Nat → Byte → List Bool → Byte
  | 0, r, _ => r
  | _ + 1, r, [] => r
  | n + 1, r, b :: bs => withBits n (withBit r n b) bs

theorem readBits_ran (s : State) (c : Channel) (br : Bool) :
    ∀ (n : Nat) (r : Byte) (es : List Event),
      readBits c n r (ran s c es { scl := .l, sda := .z } br) =
        (withBits n r (readAnswers s c n es),
          ran s c (es ++ (readAnswers s c n es).flatMap (readCycle c)) { scl := .l, sda := .z } br)
  | 0, r, es => by simp [readBits, withBits, readAnswers]
  | n + 1, r, es => by
    simp only [readBits, drv_ran, pairSet_scl, smp_ran, readAnswers, withBits]
    have h : es ++ settled c .scl .h ++ [Event.smp c .sda (answerAfter s (es ++ settled c .scl .h) c .sda)] ++
        settled c .scl .l = es ++ readCycle c (answerAfter s (es ++ settled c .scl .h) c .sda) := by
      simp [readCycle]
    rw [h, readBits_ran s c br n]
    simp

/-- Eight bits set from the top are the byte they make, MSB first. -/
theorem withBits_eight (bits : List Bool) (h : bits.length = 8) : withBits 8 0x00#8 bits = byteOfBits bits := by
  match bits, h with
  | [a, b, c, d, e, f, g, i], _ => revert a b c d e f g i; decide

/-- RDB_body on a state in terms of its trace: eight samples, the first the most significant bit, and the trailing STOP of
a NACK, whose own check never fires (R105, R107). -/
theorem rdbBody_ran (s : State) (c : Channel) (es : List Event) (p : LinePair) (br : Bool) (k : Ack) :
    rdbBody c k (ran s c es p br) =
      let bits := readAnswers s c 8 (es ++ settled c .scl .l ++ settled c .sda .z)
      (byteOfBits bits, ran s c (es ++ rdbEvents c k bits)
        (match k with | .ack => { scl := .l, sda := .l } | .nack => { scl := .h, sda := .z }) br) := by
  simp only [rdbBody, drv_ran, pairSet_scl, pairSet_sda, readBits_ran, sendAck]
  rw [withBits_eight _ (readAnswers_length s c 8 _)]
  cases k <;>
    simp [rdbEvents, ackDrive, bitDrive, ackBit, stopBody_ran, stopReady, List.append_assoc]

/-- The pending answers of eight samples are the bits read. -/
theorem readAnswers_pending (s : State) (c : Channel) (rest : List Bool) :
    ∀ (bits : List Bool) (as : List Bool) (es : List Event), s.answers = as ++ (bits ++ rest) → countSmp es = as.length →
      readAnswers s c bits.length es = bits
  | [], _, _, _, _ => rfl
  | b :: bits, as, es, h, n => by
    have hb : answerAfter s (es ++ settled c .scl .h) c .sda = b :=
      answerAfter_pending s _ c .sda as (bits ++ rest) b (by simpa using h) (by simpa using n)
    simp only [List.length_cons, readAnswers, hb, List.cons.injEq, true_and]
    exact readAnswers_pending s c rest bits (as ++ [b]) _ (by simpa using h) (by simp [readCycle, n])

@[simp] theorem bitsMsb_length (b : Byte) : (bitsMsb b).length = 8 := rfl

/-- MSB-first bits make their byte again (20_memory.md R62). -/
@[simp] theorem byteOfBits_bitsMsb (b : Byte) : byteOfBits (bitsMsb b) = b := by
  revert b; decide

theorem countSmp_writeCycles (c : Channel) (bits : List Bool) : countSmp (bits.flatMap (writeCycle c)) = 0 := by
  induction bits with
  | nil => rfl
  | cons b bits ih => simp [writeCycle, ih]

theorem countSmp_readCycles (c : Channel) (bits : List Bool) :
    countSmp (bits.flatMap (readCycle c)) = bits.length := by
  induction bits with
  | nil => rfl
  | cons b bits ih => simp [readCycle, ih]

@[simp] theorem countSmp_wrbLead (c : Channel) (b : Byte) : countSmp (wrbLead c b) = 0 := by
  simp [wrbLead, countSmp_writeCycles]

@[simp] theorem countSmp_wrbEvents (c : Channel) (b : Byte) (a : Bool) : countSmp (wrbEvents c b a) = 1 := by
  simp [wrbEvents]

@[simp] theorem countSmp_startLead (c : Channel) (b : Byte) : countSmp (startLead c b) = 0 := by
  simp [startLead]

@[simp] theorem countSmp_startEvents (c : Channel) (b : Byte) (a : Bool) : countSmp (startEvents c b a) = 1 := by
  simp [startEvents]

@[simp] theorem countSmp_rstartLead (c : Channel) (b : Byte) : countSmp (rstartLead c b) = 0 := by
  simp [rstartLead]

@[simp] theorem countSmp_rstartEvents (c : Channel) (b : Byte) (a : Bool) : countSmp (rstartEvents c b a) = 1 := by
  simp [rstartEvents]

@[simp] theorem countSmp_stopEvents (c : Channel) : countSmp (stopEvents c) = 0 := rfl

@[simp] theorem countSmp_rdbEvents (c : Channel) (k : Ack) (bits : List Bool) :
    countSmp (rdbEvents c k bits) = bits.length := by
  cases k <;> simp [rdbEvents, countSmp_readCycles]

/-! The same on any state, with the trace that starts there. -/

theorem startBody_eq (s : State) (c : Channel) (ab : Byte) :
    startBody c ab s =
      let a := answerAfter s (startLead c ab) c .sda
      (ackOfBit a, ran s c (startEvents c ab a) { scl := .l, sda := .l } (!startReady (s.pair c))) := by
  have h := startBody_ran s c [] (s.pair c) false ab
  rw [ran_none] at h
  simpa using h

theorem rstartBody_eq (s : State) (c : Channel) (ab : Byte) :
    rstartBody c ab s =
      let a := answerAfter s (rstartLead c ab) c .sda
      (ackOfBit a, ran s c (rstartEvents c ab a) { scl := .l, sda := .l } (!rstartReady (s.pair c))) := by
  have h := rstartBody_ran s c [] (s.pair c) false ab
  rw [ran_none] at h
  simpa using h

theorem wrbBody_eq (s : State) (c : Channel) (b : Byte) :
    wrbBody c b s =
      let a := answerAfter s (wrbLead c b) c .sda
      (ackOfBit a, ran s c (wrbEvents c b a) { scl := .l, sda := .l } false) := by
  have h := wrbBody_ran s c [] (s.pair c) false b
  rw [ran_none] at h
  simpa using h

theorem stopBody_eq (s : State) (c : Channel) :
    stopBody c s = ran s c (stopEvents c) { scl := .h, sda := .z } (!stopReady (s.pair c)) := by
  have h := stopBody_ran s c [] (s.pair c) false
  rw [ran_none] at h
  simpa using h

theorem rdbBody_eq (s : State) (c : Channel) (k : Ack) :
    rdbBody c k s =
      let bits := readAnswers s c 8 (settled c .scl .l ++ settled c .sda .z)
      (byteOfBits bits, ran s c (rdbEvents c k bits)
        (match k with | .ack => { scl := .l, sda := .l } | .nack => { scl := .h, sda := .z }) false) := by
  have h := rdbBody_ran s c [] (s.pair c) false k
  rw [ran_none] at h
  simpa using h

/-- START_body's check as the line it looks at (10_state.md R51). -/
theorem startReady_iff (s : State) (c : Channel) : (!startReady (s.pair c)) = decide (s.line c .sda = .l) :=
  (fun x y => by cases x <;> cases y <;> rfl : ∀ x y : Drive, (!startReady ⟨x, y⟩) = decide (y = .l)) (s.pair c).scl (s.pair c).sda

/-- RSTART_body's check as the line it looks at (10_state.md R51). -/
theorem rstartReady_iff (s : State) (c : Channel) : (!rstartReady (s.pair c)) = decide (s.line c .scl ≠ .l) :=
  (fun x y => by cases x <;> cases y <;> rfl : ∀ x y : Drive, (!rstartReady ⟨x, y⟩) = decide (x ≠ .l)) (s.pair c).scl (s.pair c).sda

/-- STOP_body's check as the line it looks at (10_state.md R51). -/
theorem stopReady_iff (s : State) (c : Channel) : (!stopReady (s.pair c)) = decide (s.line c .sda ≠ .l) :=
  (fun x y => by cases x <;> cases y <;> rfl : ∀ x y : Drive, (!stopReady ⟨x, y⟩) = decide (y ≠ .l)) (s.pair c).scl (s.pair c).sda

/-- The result word of a sampled acknowledgement (10_state.md R37). -/
theorem ackWord_ackOfBit (a : Bool) : ackWord (ackOfBit a) = if a then 0x0001#16 else 0x0000#16 := by
  cases a <;> rfl

/-- The result word of a byte read (30_encoding.md R85). -/
theorem byteWord_eq (b : Byte) : byteWord b = BitVec.ofNat 16 b.toNat := by
  revert b; decide

/-- The result word of eight bits read (30_encoding.md R85, 20_memory.md R62). -/
theorem byteWord_byteOfBits (bits : List Bool) (h : bits.length = 8) :
    byteWord (byteOfBits bits) = BitVec.ofNat 16 (bitsNumber bits) := by
  match bits, h with
  | [a, b, c, d, e, f, g, i], _ => revert a b c d e f g i; decide

end Sys2Proof.Machine
end

