-- ==== Sys2Proof/Laws/Transfers.lean ====
section
/-! SUPPORT. The bodies of the primitives when the environment's answers are pending, and the number of drives of each trace.
The device protocols are made of these transfers (00_scope.md R12). -/

namespace Sys2Proof.Machine

/-- START_body whose acknowledgement sample is answered a (R101). -/
theorem startBody_answered (s : State) (c : Channel) (es : List Event) (p : LinePair) (br : Bool) (ab : Byte)
    (as rest : List Bool) (a : Bool) (h : s.answers = as ++ a :: rest) (n : countSmp es = as.length) :
    startBody c ab (ran s c es p br) =
      (ackOfBit a, ran s c (es ++ startEvents c ab a) heldPair (br || !startReady p)) := by
  have ha := answerAfter_pending s (es ++ startLead c ab) c .sda as rest a h (by simp [n])
  simp [startBody_ran, ha, heldPair]

/-- RSTART_body whose acknowledgement sample is answered a (R102). -/
theorem rstartBody_answered (s : State) (c : Channel) (es : List Event) (p : LinePair) (br : Bool) (ab : Byte)
    (as rest : List Bool) (a : Bool) (h : s.answers = as ++ a :: rest) (n : countSmp es = as.length) :
    rstartBody c ab (ran s c es p br) =
      (ackOfBit a, ran s c (es ++ rstartEvents c ab a) heldPair (br || !rstartReady p)) := by
  have ha := answerAfter_pending s (es ++ rstartLead c ab) c .sda as rest a h (by simp [n])
  simp [rstartBody_ran, ha, heldPair]

/-- WRB_body whose acknowledgement sample is answered a (R104). -/
theorem wrbBody_answered (s : State) (c : Channel) (es : List Event) (p : LinePair) (br : Bool) (b : Byte)
    (as rest : List Bool) (a : Bool) (h : s.answers = as ++ a :: rest) (n : countSmp es = as.length) :
    wrbBody c b (ran s c es p br) = (ackOfBit a, ran s c (es ++ wrbEvents c b a) heldPair br) := by
  have ha := answerAfter_pending s (es ++ wrbLead c b) c .sda as rest a h (by simp [n])
  simp [wrbBody_ran, ha, heldPair]

/-- RDB_body whose eight samples are answered with the bits of b (R105). -/
theorem rdbBody_answered (s : State) (c : Channel) (es : List Event) (p : LinePair) (br : Bool) (k : Ack)
    (as rest : List Bool) (b : Byte) (h : s.answers = as ++ (bitsMsb b ++ rest)) (n : countSmp es = as.length) :
    rdbBody c k (ran s c es p br) =
      (b, ran s c (es ++ rdbEvents c k (bitsMsb b)) (match k with | .ack => heldPair | .nack => idlePair) br) := by
  have hb := readAnswers_pending s c rest (bitsMsb b) as (es ++ settled c .scl .l ++ settled c .sda .z) h (by simp [n])
  simp only [bitsMsb_length] at hb
  rw [rdbBody_ran]
  simp only [hb, byteOfBits_bitsMsb]
  cases k <;> rfl

/-- STOP_body on a held bus (R103). -/
theorem stopBody_held (s : State) (c : Channel) (es : List Event) (br : Bool) :
    stopBody c (ran s c es heldPair br) = ran s c (es ++ stopEvents c) idlePair br := by
  simp [stopBody_ran, heldPair, idlePair, stopReady]

/-! Numbers of drives (R101 to R105). -/

theorem countDrv_append (es es' : List Event) : countDrv (es ++ es') = countDrv es + countDrv es' := by simp [countDrv]

theorem countDrv_nil : countDrv [] = 0 := rfl

theorem countDrv_smp (c : Channel) (l : Line) (b : Bool) (es : List Event) :
    countDrv (.smp c l b :: es) = countDrv es := rfl

theorem countDrv_settled (c : Channel) (l : Line) (v : Drive) : countDrv (settled c l v) = 1 := rfl

theorem countDrv_writeCycles (c : Channel) (bits : List Bool) :
    countDrv (bits.flatMap (writeCycle c)) = 3 * bits.length := by
  induction bits with
  | nil => rfl
  | cons b bits ih => simp [countDrv_append, ih, writeCycle, countDrv_settled]; omega

theorem countDrv_readCycles (c : Channel) (bits : List Bool) :
    countDrv (bits.flatMap (readCycle c)) = 2 * bits.length := by
  induction bits with
  | nil => rfl
  | cons b bits ih => simp [countDrv_append, ih, readCycle, countDrv_settled, countDrv_smp]; omega

theorem countDrv_wrbEvents (c : Channel) (b : Byte) (a : Bool) : countDrv (wrbEvents c b a) = 29 := by
  simp [wrbEvents, wrbLead, countDrv_append, countDrv_settled, countDrv_writeCycles, countDrv_smp]

theorem countDrv_startEvents (c : Channel) (b : Byte) (a : Bool) : countDrv (startEvents c b a) = 32 := by
  simp [startEvents, countDrv_append, countDrv_settled, countDrv_wrbEvents]

theorem countDrv_rstartEvents (c : Channel) (b : Byte) (a : Bool) : countDrv (rstartEvents c b a) = 33 := by
  simp [rstartEvents, countDrv_append, countDrv_settled, countDrv_startEvents]

theorem countDrv_stopEvents (c : Channel) : countDrv (stopEvents c) = 2 := rfl

theorem countDrv_rdbEvents (c : Channel) (k : Ack) (bits : List Bool) :
    countDrv (rdbEvents c k bits) = 2 * bits.length + (if k = .ack then 6 else 8) := by
  cases k <;>
    simp [rdbEvents, countDrv_append, countDrv_settled, countDrv_readCycles, countDrv_stopEvents] <;> omega

/-- The bits of a list of bytes. -/
theorem bitsMsb_flatMap_length (bs : List Byte) : (bs.flatMap bitsMsb).length = 8 * bs.length := by
  induction bs with
  | nil => rfl
  | cons b bs ih => simp only [List.flatMap_cons, List.length_append, ih, bitsMsb_length, List.length_cons]; omega

/-- The samples of a run of byte reads. -/
theorem countSmp_reads (c : Channel) (k : Ack) (bs : List Byte) :
    countSmp (bs.flatMap fun b => rdbEvents c k (bitsMsb b)) = 8 * bs.length := by
  induction bs with
  | nil => rfl
  | cons b bs ih => simp [ih]; omega

/-- The drives of a run of byte reads with ACK (R184). -/
theorem countDrv_ackReads (c : Channel) (bs : List Byte) :
    countDrv (bs.flatMap fun b => rdbEvents c .ack (bitsMsb b)) = 22 * bs.length := by
  induction bs with
  | nil => rfl
  | cons b bs ih => simp [countDrv_append, countDrv_rdbEvents, ih]; omega

end Sys2Proof.Machine
end

