-- ==== Sys2Proof/Laws/Bridge.lean ====
section
/-! SUPPORT. The transfers and the poll loop of the 1-Wire bridge in terms of their traces (43_onewire_bridge.md R180 to
R184). -/

namespace Sys2Proof.Machine

/-- The address bytes as the numbers the traces write (30_encoding.md R82). -/
theorem writeAddress_eq (a7 : Addr7) : writeAddress a7 = wAddr a7 := by
  revert a7; decide

theorem readAddress_eq (a7 : Addr7) : readAddress a7 = rAddr a7 := by
  revert a7; decide

/-- Four acknowledged transfers (R182, R184). -/
theorem fourTransfers_acked (s : State) (c : Channel) (a7 : Addr7) (x y : Byte) (es : List Event) (p : LinePair)
    (br : Bool) (as rest : List Bool) (h : s.answers = as ++ (List.replicate 4 false ++ rest))
    (n : countSmp es = as.length) :
    untilNack [startBody c (writeAddress a7), wrbBody c x, wrbBody c y, rstartBody c (readAddress a7)]
        (ran s c es p br) =
      (.ack, ran s c (es ++ bridgeOpen c a7 [x, y]) heldPair (br || !startReady p)) := by
  have h1 := startBody_answered s c es p br (wAddr a7) as (List.replicate 3 false ++ rest) false
    (by simpa [List.replicate] using h) n
  have h2 := wrbBody_answered s c (es ++ startEvents c (wAddr a7) false) heldPair (br || !startReady p) x
    (as ++ [false]) (List.replicate 2 false ++ rest) false (by simp [h, List.replicate]) (by simp [n])
  have h3 := wrbBody_answered s c (es ++ startEvents c (wAddr a7) false ++ wrbEvents c x false) heldPair
    (br || !startReady p) y (as ++ [false, false]) (List.replicate 1 false ++ rest) false
    (by simp [h, List.replicate]) (by simp [n])
  have h4 := rstartBody_answered s c
    (es ++ startEvents c (wAddr a7) false ++ wrbEvents c x false ++ wrbEvents c y false) heldPair
    (br || !startReady p) (rAddr a7) (as ++ [false, false, false]) rest false (by simp [h, List.replicate])
    (by simp [n])
  rw [show (!rstartReady heldPair) = false from rfl, Bool.or_false] at h4
  simp only [writeAddress_eq, readAddress_eq, untilNack, h1, h2, h3, h4, ackOfBit, Bool.false_eq_true, if_false]
  simp [bridgeOpen]

/-- Four transfers of which transfer j is the first not acknowledged, and the STOP that follows (R180). -/
theorem fourTransfers_nacked (s : State) (c : Channel) (a7 : Addr7) (x y : Byte) (es : List Event) (p : LinePair)
    (br : Bool) (as rest : List Bool) (j : Nat) (hj : j < 4)
    (h : s.answers = as ++ (List.replicate j false ++ true :: rest)) (n : countSmp es = as.length) :
    ∃ t, untilNack [startBody c (writeAddress a7), wrbBody c x, wrbBody c y, rstartBody c (readAddress a7)]
        (ran s c es p br) = (.nack, t) ∧
      stopBody c t = ran s c (es ++ bridgeNacked c a7 [x, y] j) idlePair (br || !startReady p) := by
  have h1 (a : Bool) (r : List Bool) (ha : s.answers = as ++ a :: r) :=
    startBody_answered s c es p br (wAddr a7) as r a ha n
  have h2 (a : Bool) (r : List Bool) (ha : s.answers = as ++ [false] ++ a :: r) :=
    wrbBody_answered s c (es ++ startEvents c (wAddr a7) false) heldPair (br || !startReady p) x
      (as ++ [false]) r a ha (by simp [n])
  have h3 (a : Bool) (r : List Bool) (ha : s.answers = as ++ [false, false] ++ a :: r) :=
    wrbBody_answered s c (es ++ startEvents c (wAddr a7) false ++ wrbEvents c x false) heldPair
      (br || !startReady p) y (as ++ [false, false]) r a ha (by simp [n])
  have h4 (a : Bool) (r : List Bool) (ha : s.answers = as ++ [false, false, false] ++ a :: r) :=
    rstartBody_answered s c (es ++ startEvents c (wAddr a7) false ++ wrbEvents c x false ++ wrbEvents c y false)
      heldPair (br || !startReady p) (rAddr a7) (as ++ [false, false, false]) r a ha (by simp [n])
  rw [show (!rstartReady heldPair) = false from rfl, Bool.or_false] at h4
  simp only [writeAddress_eq, readAddress_eq, untilNack]
  interval_cases j
  · rw [h1 true rest (by simpa using h)]
    exact ⟨_, rfl, by simp [stopBody_held, bridgeNacked]⟩
  · rw [h1 false (true :: rest) (by simpa using h)]
    simp only [ackOfBit, Bool.false_eq_true, if_false, h2 true rest (by simp [h])]
    exact ⟨_, rfl, by simp [stopBody_held, bridgeNacked]⟩
  · rw [h1 false (false :: true :: rest) (by simpa using h)]
    simp only [ackOfBit, Bool.false_eq_true, if_false, h2 false (true :: rest) (by simp [h, List.replicate]),
      h3 true rest (by simp [h, List.replicate])]
    exact ⟨_, rfl, by simp [stopBody_held, bridgeNacked]⟩
  · rw [h1 false (false :: false :: true :: rest) (by simpa using h)]
    simp only [ackOfBit, Bool.false_eq_true, if_false, h2 false (false :: true :: rest) (by simp [h, List.replicate]),
      h3 false (true :: rest) (by simp [h, List.replicate]), h4 true rest (by simp [h, List.replicate])]
    exact ⟨_, rfl, by simp [stopBody_held, bridgeNacked]⟩

/-- OWRST_body with its three transfers acknowledged and the status byte st (R181). -/
theorem owrstBody_acked (q : Config.Params) (s : State) (c : Channel) (a7 : Addr7) (es : List Event) (p : LinePair)
    (br : Bool) (as rest : List Bool) (st : Byte)
    (h : s.answers = as ++ false :: false :: false :: (bitsMsb st ++ rest)) (n : countSmp es = as.length) :
    owrstBody q c a7 (ran s c es p br) =
      (if st &&& q.rstMask = q.rstPattern then .ok else .resetStatus,
        ran s c (es ++ (bridgeOpen c a7 [q.cmdDrst] ++ rdbEvents c .nack (bitsMsb st))) idlePair
          (br || !startReady p)) := by
  have h1 := startBody_answered s c es p br (wAddr a7) as _ false h n
  have h2 := wrbBody_answered s c (es ++ startEvents c (wAddr a7) false) heldPair (br || !startReady p) q.cmdDrst
    (as ++ [false]) (false :: (bitsMsb st ++ rest)) false (by simp [h]) (by simp [n])
  have h3 := rstartBody_answered s c (es ++ startEvents c (wAddr a7) false ++ wrbEvents c q.cmdDrst false) heldPair
    (br || !startReady p) (rAddr a7) (as ++ [false, false]) (bitsMsb st ++ rest) false (by simp [h]) (by simp [n])
  have h4 := rdbBody_answered s c
    (es ++ startEvents c (wAddr a7) false ++ wrbEvents c q.cmdDrst false ++ rstartEvents c (rAddr a7) false) heldPair
    (br || !startReady p) .nack (as ++ [false, false, false]) rest st (by simp [h]) (by simp [n])
  rw [show (!rstartReady heldPair) = false from rfl, Bool.or_false] at h3
  simp only [owrstBody, writeAddress_eq, readAddress_eq, untilNack, h1, h2, h3, ackOfBit, Bool.false_eq_true,
    if_false, h4]
  simp [bridgeOpen]

/-- OWRST_body whose transfer j is the first not acknowledged (R180, R181). -/
theorem owrstBody_nacked (q : Config.Params) (s : State) (c : Channel) (a7 : Addr7) (es : List Event) (p : LinePair)
    (br : Bool) (as rest : List Bool) (j : Nat) (hj : j < 3)
    (h : s.answers = as ++ (List.replicate j false ++ true :: rest)) (n : countSmp es = as.length) :
    owrstBody q c a7 (ran s c es p br) =
      (.noAck, ran s c (es ++ bridgeNacked c a7 [q.cmdDrst] j) idlePair (br || !startReady p)) := by
  have h1 (a : Bool) (r : List Bool) (ha : s.answers = as ++ a :: r) :=
    startBody_answered s c es p br (wAddr a7) as r a ha n
  have h2 (a : Bool) (r : List Bool) (ha : s.answers = as ++ [false] ++ a :: r) :=
    wrbBody_answered s c (es ++ startEvents c (wAddr a7) false) heldPair (br || !startReady p) q.cmdDrst
      (as ++ [false]) r a ha (by simp [n])
  have h3 (a : Bool) (r : List Bool) (ha : s.answers = as ++ [false, false] ++ a :: r) :=
    rstartBody_answered s c (es ++ startEvents c (wAddr a7) false ++ wrbEvents c q.cmdDrst false) heldPair
      (br || !startReady p) (rAddr a7) (as ++ [false, false]) r a ha (by simp [n])
  rw [show (!rstartReady heldPair) = false from rfl, Bool.or_false] at h3
  simp only [owrstBody, writeAddress_eq, readAddress_eq, untilNack]
  interval_cases j
  · rw [h1 true rest (by simpa using h)]
    simp [ackOfBit, stopBody_held, bridgeNacked]
  · rw [h1 false (true :: rest) (by simpa using h)]
    simp only [ackOfBit, Bool.false_eq_true, if_false, h2 true rest (by simp [h])]
    simp [stopBody_held, bridgeNacked]
  · rw [h1 false (false :: true :: rest) (by simpa using h)]
    simp only [ackOfBit, Bool.false_eq_true, if_false, h2 false (true :: rest) (by simp [h, List.replicate]),
      h3 true rest (by simp [h, List.replicate])]
    simp [stopBody_held, bridgeNacked]

/-- A status without BUSY ends the poll loop (R184). -/
theorem pollBusy_clear (c : Channel) (n : Nat) (st : Byte) (s : State) (h : statusBusy st = false) :
    pollBusy c n st s = (st, s) := by
  cases n with
  | zero => rfl
  | succ n => rw [pollBusy, h, if_neg Bool.false_ne_true]

/-- Polls that show BUSY use up that many of the reads still allowed (R184). -/
theorem pollBusy_busy (s : State) (c : Channel) :
    ∀ (busy : List Byte) (as rest : List Bool) (es : List Event) (br : Bool) (n : Nat) (st : Byte),
      statusBusy st = true → (∀ b ∈ busy, statusBusy b = true) →
      s.answers = as ++ (busy.flatMap bitsMsb ++ rest) → countSmp es = as.length →
      pollBusy c (busy.length + n) st (ran s c es heldPair br) =
        pollBusy c n (busy.getLast?.getD st)
          (ran s c (es ++ busy.flatMap (fun b => rdbEvents c .ack (bitsMsb b))) heldPair br)
  | [], _, _, _, _, _, _, _, _, _, _ => by simp
  | b :: busy, as, rest, es, br, n, st, hst, hb, h, hn => by
    have h1 := rdbBody_answered s c es heldPair br .ack as (busy.flatMap bitsMsb ++ rest) b (by simpa using h) hn
    have h2 := pollBusy_busy s c busy (as ++ bitsMsb b) rest (es ++ rdbEvents c .ack (bitsMsb b)) br n b
      (hb b (by simp)) (fun x hx => hb x (by simp [hx])) (by simpa using h) (by simp [hn])
    rw [show (b :: busy).length + n = (busy.length + n) + 1 by simp; omega, pollBusy, if_pos hst]
    simp only [h1, h2]
    rw [List.getLast?_cons]
    simp

end Sys2Proof.Machine
end

