-- ==== Sys2Proof/Laws/Decode.lean ====
section
/-! SUPPORT. The fields of an encoded word are the fields it was made from (30_encoding.md R80, R82). -/

namespace Sys2Proof

@[simp] theorem fieldOp_encodeFields (op : BitVec 4) (c : BitVec 2) (f : Bool) (d : Byte) :
    fieldOp (encodeFields op c f d) = op := by
  ext i hi
  simp [fieldOp, encodeFields]
  interval_cases i <;> simp

@[simp] theorem fieldCh_encodeFields (op : BitVec 4) (c : BitVec 2) (f : Bool) (d : Byte) :
    fieldCh (encodeFields op c f d) = c := by
  ext i hi
  simp [fieldCh, encodeFields]
  interval_cases i <;> simp

@[simp] theorem fieldF_encodeFields (op : BitVec 4) (c : BitVec 2) (f : Bool) (d : Byte) :
    fieldF (encodeFields op c f d) = f := by
  simp [fieldF, encodeFields]

@[simp] theorem fieldRsv_encodeFields (op : BitVec 4) (c : BitVec 2) (f : Bool) (d : Byte) :
    fieldRsv (encodeFields op c f d) = false := by
  simp [fieldRsv, encodeFields]

@[simp] theorem fieldD_encodeFields (op : BitVec 4) (c : BitVec 2) (f : Bool) (d : Byte) :
    fieldD (encodeFields op c f d) = d := by
  ext i hi
  simp [fieldD, encodeFields]
  interval_cases i <;> simp

@[simp] theorem fieldD7_encodeFields (op : BitVec 4) (c : BitVec 2) (f : Bool) (d : Byte) :
    fieldD7 (encodeFields op c f d) = d.getLsbD 7 := by
  simp [fieldD7, encodeFields]

@[simp] theorem fieldA7_encodeFields (op : BitVec 4) (c : BitVec 2) (f : Bool) (a : Addr7) :
    fieldA7 (encodeFields op c f (encodeA7 a)) = a := by
  ext i hi
  simp [fieldA7, encodeFields, encodeA7]
  interval_cases i <;> simp
@[simp] theorem encodeA7_seven (a : Addr7) : (encodeA7 a)[7] = false := by
  simp [encodeA7]

end Sys2Proof
end

