-- ==== Sys2Proof/Laws/PerInstr.lean ====
section
/-! SUPPORT. Families of statements made per instruction. WordFields: the fields of R80 that every command has, in the word
the encoder gives it. -/

namespace Sys2Proof.Laws.WordFields

/-- The encoded word carries the command's channel in CH, and RSV = 0 (30_encoding.md R80, R82). -/
def Statement (i : Instr) : Prop := fieldCh (encode i) = i.chField ∧ fieldRsv (encode i) = false

theorem start (c : BitVec 2) (ab : Byte) : Statement (.start c ab) := by simp [Statement, encode, Instr.chField]

theorem rstart (c : BitVec 2) (ab : Byte) : Statement (.rstart c ab) := by simp [Statement, encode, Instr.chField]

theorem stop (c : BitVec 2) : Statement (.stop c) := by simp [Statement, encode, Instr.chField]

theorem wrb (c : BitVec 2) (b : Byte) : Statement (.wrb c b) := by simp [Statement, encode, Instr.chField]

theorem rdb (c : BitVec 2) (k : Ack) : Statement (.rdb c k) := by simp [Statement, encode, Instr.chField]

theorem busrst (c : BitVec 2) : Statement (.busrst c) := by simp [Statement, encode, Instr.chField]

theorem temp (c : BitVec 2) : Statement (.temp c) := by simp [Statement, encode, Instr.chField]

theorem owrst (c : BitVec 2) (a7 : Addr7) : Statement (.owrst c a7) := by simp [Statement, encode, Instr.chField]

theorem owcfg (c : BitVec 2) (a7 : Addr7) : Statement (.owcfg c a7) := by simp [Statement, encode, Instr.chField]

theorem owdet (c : BitVec 2) (a7 : Addr7) : Statement (.owdet c a7) := by simp [Statement, encode, Instr.chField]

theorem owtrp (c : BitVec 2) (dir : Bool) (a7 : Addr7) : Statement (.owtrp c dir a7) := by
  simp [Statement, encode, Instr.chField]

end Sys2Proof.Laws.WordFields
end

