-- ==== Sys2Proof/Laws/Recovery.lean ====
section
/-! SUPPORT. The loops of BUSRST in terms of their traces (41_bus_recovery.md R140, R144). -/

namespace Sys2Proof.Machine

/-- The answers a pulse served after w waits takes (41_bus_recovery.md R144): SDA 0, then w clock samples 0, then 1. -/
def servedAnswers (w : Nat) : List Bool := false :: (List.replicate w false ++ [true])

@[simp] theorem countSmp_stretchEvents (c : Channel) (n : Nat) : countSmp (stretchEvents c n) = n := by
  induction n with
  | zero => rfl
  | succ n ih => simp only [stretchEvents] at *; simp [List.replicate_succ, ih]

@[simp] theorem countSmp_pulseEvents (c : Channel) : countSmp (pulseEvents c) = 1 := rfl

@[simp] theorem countSmp_pulseServed (c : Channel) (w : Nat) : countSmp (pulseServed c w) = w + 2 := by
  simp [pulseServed]; omega

theorem stretchEvents_succ (c : Channel) (n : Nat) :
    stretchEvents c (n + 1) = [Event.smp c .scl false, Event.wait c 20000] ++ stretchEvents c n := by
  simp [stretchEvents, List.replicate_succ]

/-- The clock sub-loop answered w times 0 and then 1, within its tries (R140). -/
theorem awaitClock_high (s : State) (c : Channel) (p : LinePair) (br : Bool) (rest : List Bool) :
    ∀ (k w : Nat) (as : List Bool) (es : List Event), w < k →
      s.answers = as ++ (List.replicate w false ++ true :: rest) → countSmp es = as.length →
      awaitClock c k (ran s c es p br) =
        (true, ran s c (es ++ stretchEvents c w ++ [.smp c .scl true]) p br)
  | 0, _, _, _, hw, _, _ => absurd hw (Nat.not_lt_zero _)
  | k + 1, 0, as, es, _, h, n => by
    have ha := answerAfter_pending s es c .scl as rest true (by simpa using h) n
    simp [awaitClock, smp_ran, ha, stretchEvents]
  | k + 1, w + 1, as, es, hw, h, n => by
    have ha := answerAfter_pending s es c .scl as (List.replicate w false ++ true :: rest) false
      (by simpa [List.replicate_succ] using h) n
    simp only [awaitClock, smp_ran, ha, wait_ran, Bool.false_eq_true, if_false]
    rw [awaitClock_high s c p br rest k w (as ++ [false]) _ (by omega)
      (by simpa [List.replicate_succ] using h) (by simp [n])]
    simp [stretchEvents_succ]

/-- The clock sub-loop answered 0 at every try (R140). -/
theorem awaitClock_low (s : State) (c : Channel) (p : LinePair) (br : Bool) (rest : List Bool) :
    ∀ (k : Nat) (as : List Bool) (es : List Event),
      s.answers = as ++ (List.replicate k false ++ rest) → countSmp es = as.length →
      awaitClock c k (ran s c es p br) = (false, ran s c (es ++ stretchEvents c k) p br)
  | 0, _, _, _, _ => by simp [awaitClock, stretchEvents]
  | k + 1, as, es, h, n => by
    have ha := answerAfter_pending s es c .scl as (List.replicate k false ++ rest) false
      (by simpa [List.replicate_succ] using h) n
    simp only [awaitClock, smp_ran, ha, wait_ran, Bool.false_eq_true, if_false]
    rw [awaitClock_low s c p br rest k (as ++ [false]) _
      (by simpa [List.replicate_succ] using h) (by simp [n])]
    simp [stretchEvents_succ]

/-- Pulses served with the given waits leave the pulse loop with that many pulses fewer (R140). -/
theorem pulseWhileLow_served (s : State) (c : Channel) (br : Bool) (rest : List Bool) (n : Nat) :
    ∀ (ws : List Nat) (as : List Bool) (es : List Event), (∀ w ∈ ws, w < 20) →
      s.answers = as ++ (ws.flatMap servedAnswers ++ rest) → countSmp es = as.length →
      pulseWhileLow c (ws.length + n) (ran s c es .released br) =
        pulseWhileLow c n (ran s c (es ++ ws.flatMap (pulseServed c)) .released br)
  | [], _, _, _, _, _ => by simp
  | w :: ws, as, es, hw, h, hn => by
    have h0 := answerAfter_pending s es c .sda as
      (List.replicate w false ++ true :: (ws.flatMap servedAnswers ++ rest)) false
      (by simpa [servedAnswers] using h) hn
    have hlen : (w :: ws).length + n = (ws.length + n) + 1 := by simp; omega
    rw [hlen]
    simp only [pulseWhileLow, smp_ran, h0, drv_ran, pairSet_scl, Bool.false_eq_true, if_false]
    have h1 := awaitClock_high s c .released br (ws.flatMap servedAnswers ++ rest) 20 w (as ++ [false])
      (es ++ [.smp c .sda false] ++ settled c .scl .l ++ settled c .scl .z) (hw w (by simp))
      (by simpa [servedAnswers] using h) (by simp [hn])
    have hz : ({ scl := .z, sda := LinePair.released.sda } : LinePair) = .released := rfl
    simp only [hz, h1, if_true]
    have h2 := pulseWhileLow_served s c br rest n ws (as ++ servedAnswers w)
      (es ++ [.smp c .sda false] ++ settled c .scl .l ++ settled c .scl .z ++ stretchEvents c w ++
        [.smp c .scl true]) (fun x hx => hw x (by simp [hx])) (by simpa using h)
      (by simp [hn, servedAnswers])
    rw [h2]
    simp [pulseServed, pulseEvents, List.append_assoc]

end Sys2Proof.Machine
end

