-- ==== Sys2Proof/Laws/Runs.lean ====
section
/-! SUPPORT. Everything a command can do to the state, said once: it is a run of line primitives on its own channel, and
then one `finish` (00_scope.md R11, R12; 10_state.md R36, R44). -/

namespace Sys2Proof.Machine

/-- One primitive of a command on channel c; `rec` says whether the command is BUSRST. A sample is taken of a released line
only (20_memory.md R71); outside BUSRST only SDA is sampled and only settling waits occur; inside it no line is driven high
(41_bus_recovery.md R142), no contract is checked, and both lines are released at every sample. -/
inductive Prim (c : Channel) (rec : Bool) : State → State → Prop where
  | drv (l : Line) (v : Drive) (s : State) (high : rec = true → v ≠ .h) : Prim c rec s (drv c l v s)
  | smp (l : Line) (s : State) (line : s.line c l = .z) (inside : rec = true → s.pair c = .released)
      (outside : rec = false → l = .sda) : Prim c rec s (smp c l s).2
  | stretch (s : State) (inside : rec = true) : Prim c rec s (wait c Config.stretchWait s)
  | check (h : Bool) (s : State) (outside : rec = false) : Prim c rec s (checkContract h s)

/-- A run of primitives. -/
abbrev Runs (c : Channel) (rec : Bool) : State → State → Prop := Relation.ReflTransGen (Prim c rec)

theorem Runs.addDrv {c : Channel} {s t : State} (l : Line) (v : Drive) (h : Runs c false s t) :
    Runs c false s (drv c l v t) :=
  h.tail (.drv l v t (by simp))

theorem Runs.addCheck {c : Channel} {s t : State} (b : Bool) (h : Runs c false s t) :
    Runs c false s (checkContract b t) :=
  h.tail (.check b t rfl)

theorem Runs.addSmp {c : Channel} {s t : State} (h : Runs c false s t) (z : t.line c .sda = .z) :
    Runs c false s (smp c .sda t).2 :=
  h.tail (.smp .sda t z (by simp) (by simp))

theorem pair_drv (c : Channel) (l : Line) (v : Drive) (s : State) :
    (drv c l v s).pair c = pairSet (s.pair c) l v := by
  simp [State.pair]

theorem pair_smp (c : Channel) (l : Line) (s : State) : (smp c l s).2.pair c = s.pair c := rfl

theorem pair_wait (c : Channel) (n : Nat) (s : State) : (wait c n s).pair c = s.pair c := rfl

theorem line_drv_same (c : Channel) (l : Line) (v : Drive) (s : State) : (drv c l v s).line c l = v := by
  simp [State.line, pair_drv]

theorem line_drv_other (c : Channel) {l l' : Line} (h : l' ≠ l) (v : Drive) (s : State) :
    (drv c l v s).line c l' = s.line c l' := by
  simp only [State.line, pair_drv, pairLine_pairSet_other _ h]

theorem line_smp (c : Channel) (l l' : Line) (s : State) : (smp c l s).2.line c l' = s.line c l' := rfl

/-! The bodies of the five primitives. -/

theorem writeBits_runs (c : Channel) (b : Byte) : ∀ (n : Nat) (s t : State), Runs c false s t →
    Runs c false s (writeBits c b n t)
  | 0, _, _, h => h
  | n + 1, _, _, h => writeBits_runs c b n _ _ (((h.addDrv .sda _).addDrv .scl .h).addDrv .scl .l)

theorem sampleAck_runs (c : Channel) (s t : State) (h : Runs c false s t) : Runs c false s (sampleAck c t).2 :=
  ((((h.addDrv .sda .z).addDrv .scl .h).addSmp
    (by rw [line_drv_other c (by decide), line_drv_same])).addDrv .scl .l).addDrv .sda .l

theorem wrbBody_runs (c : Channel) (b : Byte) (s t : State) (h : Runs c false s t) : Runs c false s (wrbBody c b t).2 :=
  sampleAck_runs c s _ (writeBits_runs c b 8 s _ (h.addDrv .scl .l))

theorem startBody_runs (c : Channel) (b : Byte) (s t : State) (h : Runs c false s t) :
    Runs c false s (startBody c b t).2 :=
  wrbBody_runs c b s _ ((((h.addCheck _).addDrv .scl .h).addDrv .sda .l).addDrv .scl .l)

theorem rstartBody_runs (c : Channel) (b : Byte) (s t : State) (h : Runs c false s t) :
    Runs c false s (rstartBody c b t).2 :=
  startBody_runs c b s _ ((h.addCheck _).addDrv .sda .z)

theorem stopBody_runs (c : Channel) (s t : State) (h : Runs c false s t) : Runs c false s (stopBody c t) :=
  ((h.addCheck _).addDrv .scl .h).addDrv .sda .z

theorem readBits_runs (c : Channel) : ∀ (n : Nat) (r : Byte) (s t : State), Runs c false s t → t.line c .sda = .z →
    Runs c false s (readBits c n r t).2
  | 0, _, _, _, h, _ => h
  | n + 1, _, s, t, h, z => by
    have z' : (drv c .scl .h t).line c .sda = .z := by rw [line_drv_other c (by decide), z]
    exact readBits_runs c n _ s _ (((h.addDrv .scl .h).addSmp z').addDrv .scl .l)
      (by rw [line_drv_other c (by decide), line_smp, z'])

theorem sendAck_runs (c : Channel) (k : Ack) (s t : State) (h : Runs c false s t) : Runs c false s (sendAck c k t) := by
  have h' := (((h.addDrv .sda (ackDrive k)).addDrv .scl .h).addDrv .scl .l).addDrv .sda .l
  cases k with
  | ack => exact h'
  | nack => exact stopBody_runs c s _ h'

theorem rdbBody_runs (c : Channel) (k : Ack) (s t : State) (h : Runs c false s t) : Runs c false s (rdbBody c k t).2 :=
  sendAck_runs c k s _ (readBits_runs c 8 0 s _ ((h.addDrv .scl .l).addDrv .sda .z) (line_drv_same ..))

/-! Bus recovery. -/

theorem pair_awaitClock (c : Channel) : ∀ (n : Nat) (s : State), (awaitClock c n s).2.pair c = s.pair c
  | 0, _ => rfl
  | n + 1, s => by
    simp only [awaitClock]
    split
    · rfl
    · rw [pair_awaitClock c n]; rfl

theorem line_of_released {c : Channel} {s : State} (h : s.pair c = .released) (l : Line) : s.line c l = .z := by
  cases l <;> simp [State.line, h, LinePair.released, pairLine]

theorem Runs.addSmpReleased {c : Channel} {s t : State} (l : Line) (h : Runs c true s t) (z : t.pair c = .released) :
    Runs c true s (smp c l t).2 :=
  h.tail (.smp l t (line_of_released z l) (fun _ => z) (by simp))

theorem Runs.addLow {c : Channel} {s t : State} (l : Line) (h : Runs c true s t) :
    Runs c true s (drv c l .l t) :=
  h.tail (.drv l .l t (by simp))

theorem Runs.addRelease {c : Channel} {s t : State} (l : Line) (h : Runs c true s t) :
    Runs c true s (drv c l .z t) :=
  h.tail (.drv l .z t (by simp))

theorem awaitClock_runs (c : Channel) : ∀ (n : Nat) (s t : State), Runs c true s t → t.pair c = .released →
    Runs c true s (awaitClock c n t).2
  | 0, _, _, h, _ => h
  | n + 1, s, t, h, z => by
    simp only [awaitClock]
    split
    · exact h.addSmpReleased .scl z
    · exact awaitClock_runs c n s _ ((h.addSmpReleased .scl z).tail (.stretch _ rfl)) z

theorem pair_pulse {c : Channel} {s : State} (h : s.pair c = .released) :
    (drv c .scl .z (drv c .scl .l s)).pair c = .released := by
  simp [pair_drv, h, LinePair.released]

theorem pair_pulseWhileLow (c : Channel) : ∀ (n : Nat) (s : State), s.pair c = .released →
    (pulseWhileLow c n s).2.pair c = .released
  | 0, _, h => h
  | n + 1, s, h => by
    simp only [pulseWhileLow]
    split
    · exact h
    · split
      · exact pair_pulseWhileLow c n _ (by rw [pair_awaitClock]; exact pair_pulse h)
      · rw [pair_awaitClock]; exact pair_pulse h

theorem pulseWhileLow_runs (c : Channel) : ∀ (n : Nat) (s t : State), Runs c true s t → t.pair c = .released →
    Runs c true s (pulseWhileLow c n t).2
  | 0, _, _, h, _ => h
  | n + 1, s, t, h, z => by
    simp only [pulseWhileLow]
    split
    · exact h.addSmpReleased .sda z
    · have hp := awaitClock_runs c Config.stretchTries s _
        (((h.addSmpReleased .sda z).addLow .scl).addRelease .scl) (pair_pulse z)
      split
      · exact pulseWhileLow_runs c n s _ hp (by rw [pair_awaitClock]; exact pair_pulse z)
      · exact hp

theorem pair_recoverLead (c : Channel) (s : State) :
    (drv c .sda .z (drv c .scl .z s)).pair c = .released := by
  simp [pair_drv, LinePair.released]

theorem clearOrStuck_runs (c : Channel) (s t : State) (h : Runs c true s t) (z : t.pair c = .released) :
    Runs c true s (clearOrStuck c t).2 := by
  simp only [clearOrStuck]
  split
  · exact ((h.addSmpReleased .sda z).addLow .sda).addRelease .sda
  · exact h.addSmpReleased .sda z

theorem recover_runs (c : Channel) (s t : State) (h : Runs c true s t) : Runs c true s (recover c t).2 := by
  have h0 := ((h.addRelease .scl).addRelease .sda).addSmpReleased .scl (pair_recoverLead c t)
  simp only [recover]
  split
  · have h1 := pulseWhileLow_runs c Config.recoveryPulses s _ h0 (pair_recoverLead c t)
    split
    · exact clearOrStuck_runs c s _ h1 (pair_pulseWhileLow c _ _ (pair_recoverLead c t))
    · exact h1
  · exact h0

/-! The device protocols. -/

theorem untilNack_runs (c : Channel) : ∀ (fs : List (State → Ack × State)) (s t : State),
    (∀ f ∈ fs, ∀ u, Runs c false s u → Runs c false s (f u).2) → Runs c false s t →
    Runs c false s (untilNack fs t).2
  | [], _, _, _, h => h
  | f :: fs, s, t, hf, h => by
    have h1 := hf f (by simp) t h
    simp only [untilNack]
    split
    · exact untilNack_runs c fs s _ (fun g hg => hf g (by simp [hg])) h1
    · exact h1

/-- The transfers that open a bridge command (43_onewire_bridge.md R181, R182, R184). -/
theorem bridgeOpen_runs (c : Channel) (a r : Byte) (bytes : List Byte) (s t : State) (h : Runs c false s t) :
    Runs c false s (untilNack (startBody c a :: (bytes.map (wrbBody c) ++ [rstartBody c r])) t).2 := by
  refine untilNack_runs c _ s t (fun f hf u hu => ?_) h
  simp only [List.mem_cons, List.mem_append, List.mem_map] at hf
  rcases hf with rfl | ⟨b, _, rfl⟩ | rfl | hf
  · exact startBody_runs c a s u hu
  · exact wrbBody_runs c b s u hu
  · exact rstartBody_runs c r s u hu
  · exact absurd hf (by simp)

theorem owrstBody_runs (p : Config.Params) (c : Channel) (a7 : Addr7) (s t : State) (h : Runs c false s t) :
    Runs c false s (owrstBody p c a7 t).2 := by
  have h1 := bridgeOpen_runs c (writeAddress a7) (readAddress a7) [p.cmdDrst] s t h
  simp only [List.map, List.cons_append, List.nil_append] at h1
  simp only [owrstBody]
  split
  · exact stopBody_runs c s _ h1
  · exact rdbBody_runs c .nack s _ h1

theorem owcfgBody_runs (p : Config.Params) (c : Channel) (a7 : Addr7) (s t : State) (h : Runs c false s t) :
    Runs c false s (owcfgBody p c a7 t).2 := by
  have h1 := bridgeOpen_runs c (writeAddress a7) (readAddress a7) [p.cmdWcfg, p.configByte] s t h
  simp only [List.map, List.cons_append, List.nil_append] at h1
  simp only [owcfgBody, correctiveReset]
  split
  · exact owrstBody_runs p c a7 s _ (stopBody_runs c s _ h1)
  · split
    · exact rdbBody_runs c .nack s _ h1
    · exact owrstBody_runs p c a7 s _ (rdbBody_runs c .nack s _ h1)

theorem detect_runs (p : Config.Params) (c : Channel) (a7 : Addr7) (s t : State) (h : Runs c false s t) :
    Runs c false s (detect p c a7 t).2 := by
  have h1 := owrstBody_runs p c a7 s t h
  simp only [detect]
  split
  · exact owcfgBody_runs p c a7 s _ h1
  · exact h1

theorem pollBusy_runs (c : Channel) : ∀ (n : Nat) (st : Byte) (s t : State), Runs c false s t →
    Runs c false s (pollBusy c n st t).2
  | 0, _, _, _, h => h
  | n + 1, st, s, t, h => by
    simp only [pollBusy]
    split
    · exact pollBusy_runs c n _ s _ (rdbBody_runs c .ack s t h)
    · exact h

/-- A run, and then one commit of a result (10_state.md R36). -/
def Commits (c : Channel) (rec : Bool) (s t : State) : Prop :=
  ∃ u res err, Runs c rec s u ∧ t = finish res err u

theorem triplet_commits (p : Config.Params) (c : Channel) (dir : Bool) (a7 : Addr7) (s : State) :
    Commits c false s (triplet p c dir a7 s) := by
  have h1 := bridgeOpen_runs c (writeAddress a7) (readAddress a7) [p.cmd1wt, dirByte dir] s s .refl
  simp only [List.map, List.cons_append, List.nil_append] at h1
  simp only [triplet]
  split
  · exact ⟨_, _, _, stopBody_runs c s _ h1, rfl⟩
  · have h2 := fun st => rdbBody_runs c .nack s _
      (pollBusy_runs c (Config.pollLimit - 1) st s _ (rdbBody_runs c .ack s _ h1))
    simp only [pollTriplet]
    split
    · exact ⟨_, _, _, owrstBody_runs p c a7 s _ (h2 _), rfl⟩
    · exact ⟨_, _, _, h2 _, rfl⟩

theorem sweepTemp_commits (p : Config.Params) (c : Channel) : ∀ (is : List Nat) (s t : State), Runs c false s t →
    Commits c false s (sweepTemp p c is t)
  | [], _, _, h => ⟨_, _, _, h, rfl⟩
  | i :: is, s, t, h => by
    have h1 := startBody_runs c (tempAddress p.tempBase7 i) s t h
    simp only [sweepTemp]
    split
    · exact ⟨_, _, _, rdbBody_runs c .nack s _ (rdbBody_runs c .ack s _ h1), rfl⟩
    · exact sweepTemp_commits p c is s _ (stopBody_runs c s _ h1)

/-- Is the command BUSRST? -/
def isRecovery : Instr → Bool
  | .start _ _ => false
  | .rstart _ _ => false
  | .stop _ => false
  | .wrb _ _ => false
  | .rdb _ _ => false
  | .busrst _ => true
  | .temp _ => false
  | .owrst _ _ => false
  | .owcfg _ _ => false
  | .owdet _ _ => false
  | .owtrp _ _ _ => false

/-- Every command on a legal channel is a run of primitives on that channel and one commit. -/
theorem exec_commits {i : Instr} {s t : State} {ch : Channel} (hc : channelOf i.chField = some ch)
    (h : exec i s = .next t) : Commits ch (isRecovery i) s t := by
  have next {body : Channel → State} {c : BitVec 2} (hc : channelOf c = some ch)
      (h : onChannel c s body = .next t) : t = body ch := by
    rw [onChannel_some hc] at h
    exact (Host.Outcome.next.inj h).symm
  cases i with
  | start c ab => exact next hc h ▸ ⟨_, _, _, startBody_runs ch ab s s .refl, rfl⟩
  | rstart c ab => exact next hc h ▸ ⟨_, _, _, rstartBody_runs ch ab s s .refl, rfl⟩
  | stop c => exact next hc h ▸ ⟨_, _, _, stopBody_runs ch s s .refl, rfl⟩
  | wrb c b => exact next hc h ▸ ⟨_, _, _, wrbBody_runs ch b s s .refl, rfl⟩
  | rdb c k => exact next hc h ▸ ⟨_, _, _, rdbBody_runs ch k s s .refl, rfl⟩
  | busrst c => exact next hc h ▸ ⟨_, _, _, recover_runs ch s s .refl, rfl⟩
  | temp c => exact next hc h ▸ sweepTemp_commits Config.params ch _ s s .refl
  | owrst c a7 => exact next hc h ▸ ⟨_, _, _, owrstBody_runs Config.params ch a7 s s .refl, rfl⟩
  | owcfg c a7 => exact next hc h ▸ ⟨_, _, _, owcfgBody_runs Config.params ch a7 s s .refl, rfl⟩
  | owdet c a7 => exact next hc h ▸ ⟨_, _, _, detect_runs Config.params ch a7 s s .refl, rfl⟩
  | owtrp c dir a7 => exact next hc h ▸ triplet_commits Config.params ch dir a7 s

/-- A command on channel 3 is illegal (30_encoding.md R84). -/
theorem exec_illegal {i : Instr} (hc : channelOf i.chField = none) (s : State) :
    exec i s = .next (illegalCommand s) := by
  cases i <;> exact onChannel_none hc s _

end Sys2Proof.Machine
end

