-- ==== Sys2Proof/Laws/Temperature.lean ====
section
/-! SUPPORT. The address sweep of TEMP in terms of its trace (42_temperature.md R161, R164). -/

namespace Sys2Proof.Machine

/-- The address byte as the number the trace writes (R161). -/
theorem tempAddress_eq (base : Addr7) (i : Nat) :
    tempAddress base i = BitVec.ofNat 8 (2 * ((base.toNat + i) % 128) + 1) := by
  have h : ∀ a7 : Addr7, readAddress a7 = BitVec.ofNat 8 (2 * a7.toNat + 1) := by decide
  rw [tempAddress, h]
  congr 3
  simp [BitVec.toNat_add]

/-- `hi : lo` as a number (20_memory.md R63). -/
theorem tempWord_eq (hi lo : Byte) : tempWord hi lo = BitVec.ofNat 16 (256 * hi.toNat + lo.toNat) := by
  have h1 := hi.isLt
  have h2 := lo.isLt
  apply BitVec.eq_of_toNat_eq
  simp [tempWord, BitVec.toNat_or, BitVec.toNat_shiftLeft]
  rw [Nat.shiftLeft_eq, Nat.mod_eq_of_lt (a := hi.toNat) (by omega), Nat.mod_eq_of_lt (a := lo.toNat) (by omega),
    Nat.mod_eq_of_lt (a := hi.toNat * 2 ^ 8) (by omega), Nat.mul_comm hi.toNat,
    ← Nat.two_pow_add_eq_or_of_lt (i := 8) h2]
  omega

theorem countSmp_tempMisses (c : Channel) (base : Addr7) (is : List Nat) :
    countSmp (is.flatMap (tempMiss c base)) = is.length := by
  induction is with
  | nil => rfl
  | cons i is ih => simp [ih, tempMiss]; omega

theorem countDrv_tempMisses (c : Channel) (base : Addr7) (is : List Nat) :
    countDrv (is.flatMap (tempMiss c base)) = 34 * is.length := by
  induction is with
  | nil => rfl
  | cons i is ih => simp [ih, tempMiss, countDrv_append, countDrv_startEvents, countDrv_stopEvents]; omega

/-- One refused address (R161, D6). -/
theorem sweepTemp_miss (q : Config.Params) (s : State) (c : Channel) (is : List Nat) (as rest : List Bool)
    (es : List Event) (p : LinePair) (br : Bool) (i : Nat)
    (h : s.answers = as ++ true :: rest) (n : countSmp es = as.length) :
    sweepTemp q c (i :: is) (ran s c es p br) =
      sweepTemp q c is (ran s c (es ++ tempMiss c q.tempBase7 i) idlePair (br || !startReady p)) := by
  simp only [sweepTemp, startBody_answered s c es p br _ as rest true h n, ackOfBit, stopBody_held, tempMiss,
    tempAddress_eq]
  simp

/-- A run of refused addresses (R161). -/
theorem sweepTemp_misses (q : Config.Params) (s : State) (c : Channel) (tail : List Nat) :
    ∀ (is : List Nat) (as rest : List Bool) (es : List Event) (p : LinePair) (br : Bool),
      s.answers = as ++ (List.replicate is.length true ++ rest) → countSmp es = as.length →
      sweepTemp q c (is ++ tail) (ran s c es p br) =
        if is = [] then sweepTemp q c tail (ran s c es p br)
        else sweepTemp q c tail (ran s c (es ++ is.flatMap (tempMiss c q.tempBase7)) idlePair (br || !startReady p))
  | [], _, _, _, _, _, _, _ => by simp
  | i :: is, as, rest, es, p, br, h, n => by
    rw [List.cons_append, sweepTemp_miss q s c _ as (List.replicate is.length true ++ rest) es p br i
        (by simpa [List.replicate_succ] using h) n,
      sweepTemp_misses q s c tail is (as ++ [true]) rest _ _ _ (by simpa [List.replicate_succ] using h)
        (by simp [n, tempMiss])]
    by_cases hl : is = [] <;> simp [hl, startReady, idlePair]

/-- An acknowledged address and the two bytes (R161, R164). -/
theorem sweepTemp_found (q : Config.Params) (s : State) (c : Channel) (is : List Nat) (as rest : List Bool)
    (es : List Event) (p : LinePair) (br : Bool) (i : Nat) (hi lo : Byte)
    (h : s.answers = as ++ false :: (bitsMsb hi ++ (bitsMsb lo ++ rest))) (n : countSmp es = as.length) :
    sweepTemp q c (i :: is) (ran s c es p br) =
      finish (tempDecode (tempWord hi lo)) .ok
        (ran s c (es ++ startEvents c (tempAddress q.tempBase7 i) false ++ rdbEvents c .ack (bitsMsb hi) ++
          rdbEvents c .nack (bitsMsb lo)) idlePair (br || !startReady p)) := by
  have h1 := rdbBody_answered s c (es ++ startEvents c (tempAddress q.tempBase7 i) false) heldPair
    (br || !startReady p) .ack (as ++ [false]) (bitsMsb lo ++ rest) hi (by simp [h]) (by simp [n])
  have h2 := rdbBody_answered s c
    (es ++ startEvents c (tempAddress q.tempBase7 i) false ++ rdbEvents c .ack (bitsMsb hi)) heldPair
    (br || !startReady p) .nack (as ++ [false] ++ bitsMsb hi) rest lo (by simp [h]) (by simp [n])
  simp only [sweepTemp, startBody_answered s c es p br _ as _ false h n, ackOfBit, Bool.false_eq_true, if_false,
    readTemp, h1, h2]

end Sys2Proof.Machine
end

