-- ==== Sys2Proof/Laws/Transparent.lean ====
section
/-! SUPPORT. What a command does not look at, said once: a change of the state that every primitive of a channel commutes with
is one that every command on that channel commutes with. -/

namespace Sys2Proof.Machine

/-- A change of the state that the primitives of channel c commute with. -/
structure Transparent (c : Channel) (f : State → State) : Prop where
  pair : ∀ s, (f s).pair c = s.pair c
  drv : ∀ l v s, drv c l v (f s) = f (drv c l v s)
  smp : ∀ l s, smp c l (f s) = ((smp c l s).1, f (smp c l s).2)
  wait : ∀ n s, wait c n (f s) = f (wait c n s)
  check : ∀ h s, checkContract h (f s) = f (checkContract h s)

/-- The commit of a result commutes with the change as well. -/
def FinishCommutes (f : State → State) : Prop := ∀ w e s, finish w e (f s) = f (finish w e s)

variable {c : Channel} {f : State → State}

theorem FinishCommutes.eq (hf : FinishCommutes f) (w : Word) (e : ErrCode) (s : State) :
    finish w e (f s) = f (finish w e s) := hf w e s

theorem Transparent.writeBits (t : Transparent c f) (b : Byte) : ∀ (n : Nat) (s : State),
    writeBits c b n (f s) = f (writeBits c b n s)
  | 0, _ => rfl
  | n + 1, s => by simp only [Machine.writeBits, writeBit, t.drv, Transparent.writeBits t b n]

theorem Transparent.wrbBody (t : Transparent c f) (b : Byte) (s : State) :
    wrbBody c b (f s) = ((wrbBody c b s).1, f (wrbBody c b s).2) := by
  simp only [Machine.wrbBody, sampleAck, t.drv, t.writeBits, t.smp]

theorem Transparent.startBody (t : Transparent c f) (b : Byte) (s : State) :
    startBody c b (f s) = ((startBody c b s).1, f (startBody c b s).2) := by
  simp only [Machine.startBody, t.pair, t.check, t.drv, t.wrbBody]

theorem Transparent.rstartBody (t : Transparent c f) (b : Byte) (s : State) :
    rstartBody c b (f s) = ((rstartBody c b s).1, f (rstartBody c b s).2) := by
  simp only [Machine.rstartBody, t.pair, t.check, t.drv, t.startBody]

theorem Transparent.stopBody (t : Transparent c f) (s : State) : stopBody c (f s) = f (stopBody c s) := by
  simp only [Machine.stopBody, t.pair, t.check, t.drv]

theorem Transparent.readBits (t : Transparent c f) : ∀ (n : Nat) (r : Byte) (s : State),
    readBits c n r (f s) = ((readBits c n r s).1, f (readBits c n r s).2)
  | 0, _, _ => rfl
  | n + 1, r, s => by simp only [Machine.readBits, t.drv, t.smp, Transparent.readBits t n]

theorem Transparent.sendAck (t : Transparent c f) (k : Ack) (s : State) : sendAck c k (f s) = f (sendAck c k s) := by
  cases k <;> simp only [Machine.sendAck, t.drv, t.stopBody]

theorem Transparent.rdbBody (t : Transparent c f) (k : Ack) (s : State) :
    rdbBody c k (f s) = ((rdbBody c k s).1, f (rdbBody c k s).2) := by
  simp only [Machine.rdbBody, t.drv, t.readBits, t.sendAck]

theorem Transparent.awaitClock (t : Transparent c f) : ∀ (n : Nat) (s : State),
    awaitClock c n (f s) = ((awaitClock c n s).1, f (awaitClock c n s).2)
  | 0, _ => rfl
  | n + 1, s => by
    simp only [Machine.awaitClock, t.smp, t.wait, Transparent.awaitClock t n]
    split <;> rfl

theorem Transparent.pulseWhileLow (t : Transparent c f) : ∀ (n : Nat) (s : State),
    pulseWhileLow c n (f s) = ((pulseWhileLow c n s).1, f (pulseWhileLow c n s).2)
  | 0, _ => rfl
  | n + 1, s => by
    simp only [Machine.pulseWhileLow, t.smp, t.drv, t.awaitClock, Transparent.pulseWhileLow t n]
    split
    · rfl
    · split <;> rfl

theorem Transparent.recover (t : Transparent c f) (s : State) :
    recover c (f s) = ((recover c s).1, f (recover c s).2) := by
  simp only [Machine.recover, clearOrStuck, t.smp, t.drv, t.pulseWhileLow]
  split
  · split
    · split <;> rfl
    · rfl
  · rfl

theorem Transparent.sweepTemp (t : Transparent c f) (hf : FinishCommutes f) (p : Config.Params) : ∀ (is : List Nat) (s : State),
    sweepTemp p c is (f s) = f (sweepTemp p c is s)
  | [], s => by simp only [Machine.sweepTemp, FinishCommutes.eq hf]
  | i :: is, s => by
    simp only [Machine.sweepTemp, readTemp, t.startBody, t.rdbBody, FinishCommutes.eq hf, t.stopBody, Transparent.sweepTemp t hf p is]
    split <;> rfl

theorem Transparent.untilNack (t : Transparent c f) : ∀ (fs : List (State → Ack × State)) (s : State),
    (∀ g ∈ fs, ∀ u, g (f u) = ((g u).1, f (g u).2)) →
    untilNack fs (f s) = ((untilNack fs s).1, f (untilNack fs s).2)
  | [], _, _ => rfl
  | g :: fs, s, h => by
    simp only [Machine.untilNack, h g (by simp), Transparent.untilNack t fs _ (fun g hg => h g (by simp [hg]))]
    split <;> rfl

/-- The transfers that open a bridge command (43_onewire_bridge.md R181, R182, R184). -/
theorem Transparent.bridgeOpen (t : Transparent c f) (a r : Byte) (bytes : List Byte) (s : State) :
    Machine.untilNack (Machine.startBody c a :: (bytes.map (Machine.wrbBody c) ++ [Machine.rstartBody c r])) (f s) =
      ((Machine.untilNack (Machine.startBody c a :: (bytes.map (Machine.wrbBody c) ++ [Machine.rstartBody c r])) s).1,
        f (Machine.untilNack (Machine.startBody c a :: (bytes.map (Machine.wrbBody c) ++ [Machine.rstartBody c r])) s).2) := by
  refine t.untilNack _ s (fun g hg u => ?_)
  simp only [List.mem_cons, List.mem_append, List.mem_map] at hg
  rcases hg with rfl | ⟨b, _, rfl⟩ | rfl | hg
  · exact t.startBody a u
  · exact t.wrbBody b u
  · exact t.rstartBody r u
  · exact absurd hg (by simp)

theorem Transparent.owrstBody (t : Transparent c f) (p : Config.Params) (a7 : Addr7) (s : State) :
    owrstBody p c a7 (f s) = ((owrstBody p c a7 s).1, f (owrstBody p c a7 s).2) := by
  have h := t.bridgeOpen (writeAddress a7) (readAddress a7) [p.cmdDrst] s
  simp only [List.map, List.cons_append, List.nil_append] at h
  simp only [Machine.owrstBody, h, t.stopBody, t.rdbBody]
  split <;> rfl

theorem Transparent.owcfgBody (t : Transparent c f) (p : Config.Params) (a7 : Addr7) (s : State) :
    owcfgBody p c a7 (f s) = ((owcfgBody p c a7 s).1, f (owcfgBody p c a7 s).2) := by
  have h := t.bridgeOpen (writeAddress a7) (readAddress a7) [p.cmdWcfg, p.configByte] s
  simp only [List.map, List.cons_append, List.nil_append] at h
  simp only [Machine.owcfgBody, correctiveReset, h, t.stopBody, t.rdbBody, t.owrstBody]
  split
  · rfl
  · split <;> rfl

theorem Transparent.detect (t : Transparent c f) (p : Config.Params) (a7 : Addr7) (s : State) :
    detect p c a7 (f s) = ((detect p c a7 s).1, f (detect p c a7 s).2) := by
  simp only [Machine.detect, t.owrstBody, t.owcfgBody]
  split <;> rfl

theorem Transparent.pollBusy (t : Transparent c f) : ∀ (n : Nat) (st : Byte) (s : State),
    pollBusy c n st (f s) = ((pollBusy c n st s).1, f (pollBusy c n st s).2)
  | 0, _, _ => rfl
  | n + 1, st, s => by
    simp only [Machine.pollBusy, t.rdbBody, Transparent.pollBusy t n]
    split <;> rfl

theorem Transparent.triplet (t : Transparent c f) (hf : FinishCommutes f) (p : Config.Params) (dir : Bool) (a7 : Addr7)
    (s : State) :
    triplet p c dir a7 (f s) = f (triplet p c dir a7 s) := by
  have h := t.bridgeOpen (writeAddress a7) (readAddress a7) [p.cmd1wt, dirByte dir] s
  simp only [List.map, List.cons_append, List.nil_append] at h
  simp only [Machine.triplet, pollTriplet, correctiveReset, h, t.stopBody, t.rdbBody, t.pollBusy, t.owrstBody, FinishCommutes.eq hf]
  split
  · rfl
  · split <;> rfl

/-- A command on channel c commutes with what its primitives commute with. -/
theorem exec_transparent {i : Instr} (t : Transparent c f) (hf : FinishCommutes f) (hc : channelOf i.chField = some c)
    {s u : State} (h : exec i s = .next u) : exec i (f s) = .next (f u) := by
  cases i <;> simp only [Instr.chField] at hc <;>
    simp only [exec, execStart, execRstart, execStop, execWrb, execRdb, execBusrst, execTemp, tempWith, execOwrst, owrstWith,
      execOwcfg, owcfgWith, execOwdet, owdetWith, execOwtrp, owtrpWith, finishBool, onChannel_some hc,
      Host.Outcome.next.injEq] at h ⊢ <;>
    rw [← h]
  · simp only [t.startBody, FinishCommutes.eq hf]
  · simp only [t.rstartBody, FinishCommutes.eq hf]
  · simp only [t.stopBody, FinishCommutes.eq hf]
  · simp only [t.wrbBody, FinishCommutes.eq hf]
  · simp only [t.rdbBody, FinishCommutes.eq hf]
  · simp only [t.recover, FinishCommutes.eq hf]
  · simp only [t.sweepTemp hf]
  · simp only [t.owrstBody, FinishCommutes.eq hf]
  · simp only [t.owcfgBody, FinishCommutes.eq hf]
  · simp only [t.detect, FinishCommutes.eq hf]
  · simp only [t.triplet hf]

/-- No primitive looks at CV (60_exceptions.md R224). -/
theorem transparent_withCv (c : Channel) :
    Transparent c (fun s => { s with rstat := rstatWithCv s.rstat }) where
  pair _ := rfl
  drv _ _ _ := rfl
  smp _ _ := rfl
  wait _ _ := rfl
  check h s := by cases h <;> rfl

theorem finish_withCv : FinishCommutes (fun s => { s with rstat := rstatWithCv s.rstat }) := fun w e s => by
  simp [finish, rstatWithErr_withCv]

/-- No primitive looks at RES or ERR (10_state.md R36). -/
theorem transparent_finish (c : Channel) (w : Word) (e : ErrCode) : Transparent c (finish w e) where
  pair _ := rfl
  drv _ _ _ := rfl
  smp _ _ := rfl
  wait _ _ := rfl
  check h s := by cases h <;> simp [checkContract, finish, rstatWithErr_withCv]

/-- No primitive of a channel looks at another channel's contributions (10_state.md R44). -/
theorem transparent_otherLines (c : Channel) (m : Lines) :
    Transparent c (fun s => { s with lines := linesWith m c (s.pair c) }) where
  pair s := by simp [State.pair]
  drv l v s := by simp [drv, setLine, emit, Machine.wait, State.pair]
  smp l s := by simp [Machine.smp, emit, State.pair]
  wait n s := by simp [Machine.wait, emit, State.pair]
  check h s := by cases h <;> simp [checkContract, State.pair]

theorem finish_otherLines (c : Channel) (m : Lines) :
    FinishCommutes (fun s => { s with lines := linesWith m c (s.pair c) }) := fun w e s => by
  simp [Machine.finish, State.pair]

end Sys2Proof.Machine
end

