-- ==== Sys2Proof/Tests/Slice0.lean ====
section
/-! SUPPORT. Tests on fixed values. The words are written out from 30_encoding.md R80 to R83, the expected results are those of
95_test_vectors.md; and for every statement with hypotheses, values that meet all of them. -/

set_option maxRecDepth 20000

namespace Sys2Proof.Tests

open Sys2Proof Sys2Proof.Machine

/-- The illustrative OPEN parameters of 95_test_vectors.md. -/
def illustrative : Config.Params :=
  { tempBase7 := 0x48#7, cmdDrst := 0xF0#8, cmdWcfg := 0xD2#8, cmd1wt := 0x78#8, configByte := 0xE1#8,
    rstMask := 0xF7#8, rstPattern := 0x10#8, wired := [.ch0], delayUnit := 5000 }

/-- Reset, but for the pair of channel 0 and the environment's pending answers. -/
def fresh (p : LinePair) (as : List Bool) : State :=
  { State.reset with lines := { State.reset.lines with ch0 := p }, answers := as }

/-- Reset with host actions pending. -/
def hosted (ins : List Input) : State := { State.reset with inputs := ins }

/-- What a test looks at: RES, RSTAT, the pair of channel 0, the drives, the samples and the answers left over. -/
def seen : Host.Outcome State Fault Refusal → Option (Word × Byte × LinePair × Nat × Nat × Nat)
  | .next t => some (t.res, t.rstat, t.pair .ch0, countDrv t.history, countSmp t.history, t.answers.length)
  | .fault _ => none
  | .refused _ => none

/-- The trace of an outcome. -/
def traceOf : Host.Outcome State Fault Refusal → List Event
  | .next t => t.trace
  | .fault _ => []
  | .refused _ => []

/-! WellFormed: the one check (30_encoding.md R84 item 2), on a term of every command. -/

theorem test_wellFormed_refuses_channel_three :
    ∀ i ∈ [Instr.start 3#2 0x91#8, .rstart 3#2 0x31#8, .stop 3#2, .wrb 3#2 0xA5#8, .rdb 3#2 .nack, .busrst 3#2, .temp 3#2,
      .owrst 3#2 0x18#7, .owcfg 3#2 0x18#7, .owdet 3#2 0x18#7, .owtrp 3#2 true 0x18#7], ¬ i.WellFormed := by decide

theorem test_wellFormed_accepts_channels :
    ∀ c ∈ [0#2, 1#2, 2#2], (Instr.stop c).WellFormed ∧ (Instr.owtrp c false 0x7F#7).WellFormed := by decide

/-! Decoding, each word from the bit pattern of its row in R83: op, ch, f, rsv, d. -/

theorem test_decode_start : decode 0b0000010010010001#16 = .ok (.start 1#2 0x91#8) := by decide
theorem test_decode_rstart : decode 0b0001100000110001#16 = .ok (.rstart 2#2 0x31#8) := by decide
theorem test_decode_stop : decode 0b0010010000000000#16 = .ok (.stop 1#2) := by decide
theorem test_decode_wrb : decode 0b0011010010100101#16 = .ok (.wrb 1#2 0xA5#8) := by decide
theorem test_decode_rdb_nack : decode 0b0100001000000000#16 = .ok (.rdb 0#2 .nack) := by decide
theorem test_decode_rdb_ack : decode 0b0100100000000000#16 = .ok (.rdb 2#2 .ack) := by decide
theorem test_decode_busrst : decode 0b0101100000000000#16 = .ok (.busrst 2#2) := by decide
theorem test_decode_temp : decode 0b0110010000000000#16 = .ok (.temp 1#2) := by decide
theorem test_decode_owrst : decode 0b0111000000011000#16 = .ok (.owrst 0#2 0x18#7) := by decide
theorem test_decode_owcfg : decode 0b1000010001111111#16 = .ok (.owcfg 1#2 0x7F#7) := by decide
theorem test_decode_owdet : decode 0b1001100000000001#16 = .ok (.owdet 2#2 0x01#7) := by decide
theorem test_decode_owtrp : decode 0b1010001000011000#16 = .ok (.owtrp 0#2 true 0x18#7) := by decide
theorem test_decode_owtrp_zero : decode 0b1010010001000000#16 = .ok (.owtrp 1#2 false 0x40#7) := by decide

/-- The illegal words of 95_test_vectors.md. -/
theorem test_decode_rejects :
    ∀ w ∈ [0xB000, 0xF000, 0x0C00, 0x0100, 0x0200, 0x2001, 0x5001, 0x2200, 0x6200, 0x4201, 0x7080, 0x8080, 0xA380],
      (decode (BitVec.ofNat 16 w)).isOk = false := by decide

/-- A table word shorter than the command leaves its upper bits 0, a longer one is none (log 16). -/
theorem test_decodeTableWord_width :
    decodeTableWord 16 0x34A5 = some (.wrb 1#2 0xA5#8) ∧ decodeTableWord 8 0x34A5 = some (.start 0#2 0xA5#8) ∧
      decodeTableWord 32 0x34A5 = none := by decide

/-- R86: the operands' spelling, a comment, and three assembly errors. -/
theorem test_assembler :
    assembleLine "  RDB 2, NACK ; last byte".toList = some (.rdb 2#2 .nack) ∧
      assembleLine "OWTRP1 0, 24".toList = some (.owtrp 0#2 true 0x18#7) ∧
      assembleLine "WRB 3, 0xA5".toList = none ∧ assembleLine "OWRST 0, 0x80".toList = none ∧
      assembleLine "HALT 0".toList = none := by decide

/-! The meanings, one command each (95_test_vectors.md L1 and L2). -/

theorem test_start_violated :
    seen (exec (.start 0#2 0x30#8) (fresh heldPair [false])) = some (0x0000#16, 0x80#8, heldPair, 32, 1, 0) := by decide
theorem test_start_no_device :
    seen (exec (.start 0#2 0x91#8) (fresh idlePair [true])) = some (0x0001#16, 0x00#8, heldPair, 32, 1, 0) := by decide
theorem test_rstart :
    seen (exec (.rstart 0#2 0x31#8) (fresh heldPair [false])) = some (0x0000#16, 0x00#8, heldPair, 33, 1, 0) := by decide
theorem test_rstart_clock_high :
    seen (exec (.rstart 0#2 0x31#8) (fresh ⟨.h, .l⟩ [false])) = some (0x0000#16, 0x80#8, heldPair, 33, 1, 0) := by decide
theorem test_stop :
    seen (exec (.stop 0#2) (fresh heldPair [])) = some (0x0000#16, 0x00#8, idlePair, 2, 0, 0) := by decide
theorem test_stop_after_reset :
    seen (exec (.stop 0#2) State.reset) = some (0x0000#16, 0x80#8, idlePair, 2, 0, 0) := by decide
theorem test_wrb_levels_at_rises :
    sdaAtRises .ch0 heldPair (traceOf (exec (.wrb 0#2 0xA5#8) (fresh heldPair [false]))) =
      [.h, .l, .h, .l, .l, .h, .l, .h, .z] := by decide
theorem test_wrb_nack :
    seen (exec (.wrb 0#2 0x00#8) (fresh heldPair [true])) = some (0x0001#16, 0x00#8, heldPair, 29, 1, 0) := by decide
theorem test_rdb_ack :
    seen (exec (.rdb 0#2 .ack) (fresh heldPair [false, false, true, true, true, true, false, false])) =
      some (0x003C#16, 0x00#8, heldPair, 22, 8, 0) := by decide
theorem test_rdb_nack :
    seen (exec (.rdb 0#2 .nack) (fresh heldPair [true, true, false, false, false, false, true, true])) =
      some (0x00C3#16, 0x00#8, idlePair, 24, 8, 0) := by decide
theorem test_busrst_five_pulses :
    seen (exec (.busrst 0#2) (fresh heldPair
        [true, false, true, false, true, false, true, false, true, false, true, true, true])) =
      some (0x0000#16, 0x00#8, releasedPair, 14, 13, 0) := by decide
theorem test_busrst_timeout :
    seen (exec (.busrst 0#2) (fresh heldPair (true :: false :: List.replicate 20 false))) =
      some (0x0002#16, 0x02#8, releasedPair, 4, 22, 0) := by decide
theorem test_temp_third_address :
    seen (tempWith illustrative 0#2 (fresh idlePair ([true, true, false] ++ bitsMsb 0xFF#8 ++ bitsMsb 0xF8#8))) =
      some (0xFFF8#16, 0x00#8, idlePair, 146, 19, 0) := by decide
theorem test_temp_no_sensor :
    seen (tempWith illustrative 0#2 (fresh idlePair [true, true, true, true])) =
      some (0x0000#16, 0x01#8, idlePair, 136, 4, 0) := by decide
theorem test_owrst :
    seen (owrstWith illustrative 0#2 0x18#7 (fresh idlePair ([false, false, false] ++ bitsMsb 0x18#8))) =
      some (0x0001#16, 0x00#8, idlePair, 118, 11, 0) := by decide
theorem test_owrst_bad_status :
    seen (owrstWith illustrative 0#2 0x18#7 (fresh idlePair ([false, false, false] ++ bitsMsb 0x00#8))) =
      some (0x0000#16, 0x05#8, idlePair, 118, 11, 0) := by decide
theorem test_owcfg :
    seen (owcfgWith illustrative 0#2 0x18#7 (fresh idlePair ([false, false, false, false] ++ bitsMsb 0xE1#8))) =
      some (0x0001#16, 0x00#8, idlePair, 147, 12, 0) := by decide
theorem test_owcfg_mismatch :
    seen (owcfgWith illustrative 0#2 0x18#7
        (fresh idlePair ([false, false, false, false] ++ bitsMsb 0x01#8 ++ [false, false, false] ++ bitsMsb 0x10#8))) =
      some (0x0000#16, 0x03#8, idlePair, 265, 23, 0) := by decide
theorem test_owdet :
    seen (owdetWith illustrative 0#2 0x18#7
        (fresh idlePair ([false, false, false] ++ bitsMsb 0x18#8 ++ [false, false, false, false] ++ bitsMsb 0xE1#8))) =
      some (0x0001#16, 0x00#8, idlePair, 265, 23, 0) := by decide
theorem test_owdet_no_bridge :
    seen (owdetWith illustrative 0#2 0x18#7 (fresh idlePair [true])) = some (0x0000#16, 0x01#8, idlePair, 34, 1, 0) := by
  decide
theorem test_owtrp_final_busy :
    seen (owtrpWith illustrative 0#2 false 0x18#7
        (fresh idlePair ([false, false, false, false] ++ bitsMsb 0x60#8 ++ bitsMsb 0x61#8))) =
      some (0x0061#16, 0x00#8, idlePair, 169, 20, 0) := by decide
theorem test_owtrp_direction_refused :
    seen (owtrpWith illustrative 0#2 true 0x18#7 (fresh idlePair [false, false, true])) =
      some (0x0000#16, 0x01#8, idlePair, 92, 3, 0) := by decide

/-! Steps of the host (10_state.md R32 to R35). -/

theorem test_step_illegal_word :
    seen (step (hosted [.write .cmd 0xB000#16])) = some (0x0000#16, 0x0F#8, releasedPair, 0, 0, 0) := by decide
theorem test_step_runs_first_word_after_reset :
    seen (step (State.reset.withFetchWord 16 0x2000)) = some (0x0000#16, 0x80#8, idlePair, 2, 0, 0) := by decide

/-! Values that meet the hypotheses of each statement. -/

/-- A run that ends in SCL_STUCK: it has a drive, a wait and a sample. -/
def stuckStart : State := fresh heldPair [false]

/-- The state it leaves. -/
def stuckEnd : State := after stuckStart .ch0 (recoveryLead .ch0 false) releasedPair false 0x0001#16 .busLockup

theorem test_stuck_run : exec (.busrst 0#2) stuckStart = .next stuckEnd ∧
    stuckEnd.trace = stuckStart.trace ++ recoveryLead .ch0 false := ⟨rfl, rfl⟩

/-- A run of WRB, whose one sample is of SDA. -/
def writeEnd : State := after (fresh heldPair [true]) .ch0 (wrbEvents .ch0 0xA5#8 true) heldPair false 0x0001#16 .ok

theorem test_write_run : exec (.wrb 0#2 0xA5#8) (fresh heldPair [true]) = .next writeEnd ∧
    writeEnd.trace = (fresh heldPair [true]).trace ++ wrbEvents .ch0 0xA5#8 true := ⟨rfl, rfl⟩

theorem test_meets_DecodeEncodeRoundTrip : (Instr.wrb 2#2 0xA5#8).WellFormed ∧ (Instr.owtrp 0#2 true 0x7F#7).WellFormed := by
  decide
theorem test_meets_AcceptedWordIsItsEncoding : decode 0xA6FF#16 = .error .addressTopBit ∧
    decode 0xA67F#16 = .ok (.owtrp 1#2 true 0x7F#7) := by decide
theorem test_meets_IllegalWordsDoNothingButReport :
    ∀ w ∈ [0xB000, 0xFFFF, 0x0C00, 0x0FFF, 0x0100, 0x03FF, 0x0200, 0x9200, 0x2001, 0x40FF, 0x5001, 0x60FF, 0x7080, 0xA0FF],
      illegalWord (BitVec.ofNat 16 w).toNat ∧
        (hosted [.write .cmd (BitVec.ofNat 16 w)]).inputs = .write .cmd (BitVec.ofNat 16 w) :: [] := by
  unfold illegalWord; decide
theorem test_meets_DecoderAgreesWithMatchMaskTable :
    decode 0x4200#16 = .ok (.rdb 0#2 .nack) ∧ decode 0x4201#16 = .error .dataNotZero := by decide
theorem test_meets_AssemblerEmitsOnlyLegalWords :
    assembleLine "START 0, 0x91".toList = some (.start 0#2 0x91#8) := by decide
theorem test_meets_EveryCommandHasItsAssemblyLine : (Instr.rdb 2#2 .nack).WellFormed := by decide
theorem test_meets_ResetReleasesAndClears :
    ({ stuckEnd with inputs := [.reset, .read .res] } : State).inputs = .reset :: [.read .res] := by decide
theorem test_meets_ResetActionClearsEngine :
    ({ stuckEnd with inputs := [.reset] } : State).inputs = .reset :: [] := by decide
theorem test_meets_StepRunsDecodedCommand :
    (hosted [.write .cmd 0x2000#16, .reset]).inputs = .write .cmd 0x2000#16 :: [.reset] ∧
      decode 0x2000#16 = .ok (.stop 0#2) := by decide
theorem test_meets_EncodedWordRunsNext : (Instr.owdet 1#2 0x18#7).WellFormed := by decide
theorem test_meets_CmdReadsBackLastWrite :
    ((hosted [.write .cmd 0x2000#16]).inputs = .write .cmd 0x2000#16 :: [] ∧ decode 0x2000#16 = .ok (.stop 0#2)) ∧
      (hosted [.read .res]).inputs = .read .res :: [] ∧
      ((∀ w, (hosted [.read .cmd]).inputs.head? ≠ some (.write .cmd w)) ∧
        (hosted [.read .cmd]).inputs.head? ≠ some .reset ∧ step (hosted [.read .cmd]) = .next (hosted [])) ∧
      exec (.busrst 0#2) stuckStart = .next stuckEnd :=
  ⟨⟨rfl, by decide⟩, rfl, ⟨fun w h => by simp [hosted] at h, by decide, rfl⟩, test_stuck_run.1⟩
theorem test_meets_OtherHostActionsChangeNothing :
    (hosted [.write .res 7#16]).inputs = .write .res 7#16 :: [] ∧
      (hosted [.write .rstat 7#16]).inputs = .write .rstat 7#16 :: [] ∧
      (hosted [.read .rstat]).inputs = .read .rstat :: [] ∧ State.reset.inputs = [] := by decide
theorem test_meets_ChannelThreeIsIllegal : ¬ (Instr.temp 3#2).WellFormed := by decide
theorem test_meets_CommandTouchesOnlyItsChannel :
    channelOf (Instr.busrst 0#2).chField = some .ch0 ∧ exec (.busrst 0#2) stuckStart = .next stuckEnd ∧
      Channel.ch1 ≠ .ch0 ∧
      linesPair ({ ch0 := heldPair, ch1 := idlePair, ch2 := heldPair } : Lines) .ch0 = stuckStart.pair .ch0 :=
  ⟨by decide, rfl, by decide, by decide⟩
theorem test_meets_CommandFrame :
    exec (.busrst 0#2) { stuckStart with rstat := 0x80#8 } = .next { stuckEnd with rstat := 0x82#8 } ∧
      rstatCv 0x80#8 = true := ⟨rfl, by decide⟩
theorem test_meets_EveryDriveSettles :
    exec (.busrst 0#2) stuckStart = .next stuckEnd ∧
      stuckEnd.trace = stuckStart.trace ++ recoveryLead .ch0 false ∧
      recoveryLead .ch0 false = ([] : List Event) ++ Event.drv .ch0 .scl .z ::
        (Event.wait .ch0 1 :: (settled .ch0 .sda .z ++ [Event.smp .ch0 .scl false])) ∧
      recoveryLead .ch0 false = (settled .ch0 .scl .z ++ settled .ch0 .sda .z) ++ Event.smp .ch0 .scl false :: [] ∧
      recoveryLead .ch0 false = [Event.drv .ch0 .scl .z] ++ Event.wait .ch0 1 ::
        (settled .ch0 .sda .z ++ [Event.smp .ch0 .scl false]) := ⟨rfl, rfl, rfl, rfl, rfl⟩
theorem test_meets_OnlyDrivesWriteContributions :
    (exec (.busrst 0#2) stuckStart = .next stuckEnd ∧
      stuckEnd.trace = stuckStart.trace ++ recoveryLead .ch0 false) ∧
      (∀ w, (hosted [.read .cmd]).inputs.head? ≠ some (.write .cmd w)) ∧
      (hosted [.read .cmd]).inputs.head? ≠ some .reset ∧ step (hosted [.read .cmd]) = .next (hosted []) :=
  ⟨test_stuck_run, fun w h => by simp [hosted] at h, by decide, rfl⟩
theorem test_meets_SamplesAreEnvironmentAnswers :
    exec (.wrb 0#2 0xA5#8) (fresh heldPair [true]) = .next writeEnd ∧
      writeEnd.trace = (fresh heldPair [true]).trace ++ wrbEvents .ch0 0xA5#8 true ∧
      wrbEvents .ch0 0xA5#8 true = wrbLead .ch0 0xA5#8 ++ .smp .ch0 .sda true ::
        (settled .ch0 .scl .l ++ settled .ch0 .sda .l) := ⟨rfl, rfl, rfl⟩
theorem test_meets_OnlyReleasedLinesAreSampled :
    exec (.busrst 0#2) stuckStart = .next stuckEnd ∧
      stuckEnd.trace = stuckStart.trace ++ recoveryLead .ch0 false ∧
      recoveryLead .ch0 false = (settled .ch0 .scl .z ++ settled .ch0 .sda .z) ++ .smp .ch0 .scl false :: [] :=
  ⟨rfl, rfl, rfl⟩
theorem test_meets_StatusStaysLegal :
    (hosted [.write .cmd 0xB000#16]).StatusLegal ∧
      step (hosted [.write .cmd 0xB000#16]) = .next { State.reset with cmd := 0xB000#16, rstat := 0x0F#8 } :=
  ⟨by decide, rfl⟩
theorem test_meets_ContractBitRecordsViolations :
    step { hosted [.write .cmd 0xB000#16] with rstat := 0x80#8 } =
        .next { State.reset with cmd := 0xB000#16, rstat := 0x8F#8 } ∧
      (hosted [.write .cmd 0xB000#16]).inputs.head? ≠ some .reset ∧ rstatCv 0x80#8 = true := ⟨rfl, by decide, by decide⟩
theorem test_meets_ContractBitSteersNothing : exec (.busrst 0#2) stuckStart = .next stuckEnd := rfl
theorem test_meets_HostDutiesAreTheOnlyChecks :
    channelOf (Instr.stop 0#2).chField = some .ch0 ∧
      exec (.stop 0#2) (fresh heldPair []) =
        .next (after (fresh heldPair []) .ch0 (stopEvents .ch0) idlePair false 0x0000#16 .ok) := ⟨by decide, rfl⟩
theorem test_meets_ResultsFollowTheTable :
    ∀ i ∈ [Instr.start 0#2 0x91#8, .rstart 0#2 0x31#8, .stop 0#2, .wrb 0#2 0xA5#8, .rdb 0#2 .nack, .busrst 0#2, .temp 0#2,
        .owrst 0#2 0x18#7, .owcfg 0#2 0x18#7, .owdet 0#2 0x18#7, .owtrp 0#2 true 0x18#7],
      i.WellFormed ∧ ∃ t, exec i stuckStart = .next t := by
  intro i hi
  simp only [List.mem_cons, List.not_mem_nil, or_false] at hi
  rcases hi with rfl | rfl | rfl | rfl | rfl | rfl | rfl | rfl | rfl | rfl | rfl <;> exact ⟨by decide, _, rfl⟩
theorem test_meets_EveryCommandEndsWithItsPair :
    channelOf (Instr.wrb 0#2 0xA5#8).chField = some .ch0 ∧
      exec (.wrb 0#2 0xA5#8) (fresh heldPair [true]) = .next writeEnd := ⟨by decide, rfl⟩
theorem test_meets_StartCompletes : channelOf 0#2 = some .ch0 := by decide
theorem test_meets_RstartCompletes : channelOf 1#2 = some .ch1 := by decide
theorem test_meets_StopCompletes : channelOf 2#2 = some .ch2 := by decide
theorem test_meets_WrbCompletes : channelOf 2#2 = some .ch2 := by decide
theorem test_meets_RdbCompletes :
    channelOf 0#2 = some .ch0 ∧ (fresh heldPair (bitsMsb 0x80#8 ++ [true])).answers = bitsMsb 0x80#8 ++ [true] := by decide
theorem test_meets_WrbPresentsItsByte :
    channelOf 0#2 = some .ch0 ∧ exec (.wrb 0#2 0xA5#8) (fresh heldPair [true]) = .next writeEnd ∧
      writeEnd.trace = (fresh heldPair [true]).trace ++ wrbEvents .ch0 0xA5#8 true := ⟨by decide, rfl, rfl⟩
theorem test_meets_EdgesWhileClockHigh :
    ∀ i ∈ [Instr.start 0#2 0x91#8, .rstart 0#2 0x31#8, .stop 0#2, .wrb 0#2 0xA5#8, .rdb 0#2 .ack, .rdb 0#2 .nack],
      channelOf i.chField = some .ch0 ∧
        ((∃ c x, i = .start c x) ∨ (∃ c x, i = .rstart c x) ∨ (∃ c, i = .stop c) ∨ (∃ c x, i = .wrb c x) ∨
          (∃ c k, i = .rdb c k)) ∧
        ∃ t es, exec i (fresh heldPair []) = .next t ∧ t.trace = (fresh heldPair []).trace ++ es := by
  intro i hi
  simp only [List.mem_cons, List.not_mem_nil, or_false] at hi
  have trace (t : State) : t.trace = (fresh heldPair []).trace ++ t.trace := rfl
  rcases hi with rfl | rfl | rfl | rfl | rfl | rfl <;> exact ⟨by decide, by simp, _, _, rfl, trace _⟩
theorem test_meets_RecoveryNeverDrivesHigh :
    exec (.busrst 0#2) stuckStart = .next stuckEnd ∧
      stuckEnd.trace = stuckStart.trace ++ recoveryLead .ch0 false ∧
      recoveryLead .ch0 false = (settled .ch0 .scl .z ++ settled .ch0 .sda .z) ++ .smp .ch0 .scl false :: [] :=
  ⟨rfl, rfl, rfl⟩
theorem test_meets_RecoveryReportsSclStuck : channelOf 0#2 = some .ch0 ∧ stuckStart.answers = false :: [] := by decide
theorem test_meets_RecoveryClearsTheBus :
    channelOf 0#2 = some .ch0 ∧ ∀ ws ∈ [[], [0], [19, 0, 7], List.replicate 20 0, List.replicate 20 19],
      ws.length ≤ 20 ∧ (∀ w ∈ ws, w ≤ 19) ∧
        (fresh heldPair (true :: (ws.flatMap pulseAnswers ++ exitAnswers ws.length ++ true :: []))).answers =
          true :: (ws.flatMap pulseAnswers ++ exitAnswers ws.length ++ true :: []) := by decide
theorem test_meets_RecoveryReportsSdaStuck :
    channelOf 0#2 = some .ch0 ∧
      ∀ ws ∈ [[], [0], List.replicate 19 0, List.replicate 19 19, List.replicate 20 0, List.replicate 20 19],
      ws.length ≤ 20 ∧ (∀ w ∈ ws, w ≤ 19) ∧
        (fresh heldPair (true :: (ws.flatMap pulseAnswers ++ exitAnswers ws.length ++ false :: []))).answers =
          true :: (ws.flatMap pulseAnswers ++ exitAnswers ws.length ++ false :: []) := by decide
theorem test_meets_RecoveryReportsStretchTimeout :
    channelOf 0#2 = some .ch0 ∧ ∀ ws ∈ [[], [0, 0], List.replicate 19 0, List.replicate 19 19],
      ws.length < 20 ∧ (∀ w ∈ ws, w ≤ 19) ∧
        (fresh heldPair (true :: (ws.flatMap pulseAnswers ++ false :: (List.replicate 20 false ++ [])))).answers =
          true :: (ws.flatMap pulseAnswers ++ false :: (List.replicate 20 false ++ [])) := by decide
theorem test_meets_ClearingSequenceIsStartThenStop :
    channelOf 0#2 = some .ch0 ∧ ∃ t es, exec (.busrst 0#2) (fresh heldPair [true, true, true]) = .next t ∧
      t.trace = (fresh heldPair [true, true, true]).trace ++ es ∧ t.res = 0x0000#16 :=
  ⟨by decide, _, clearedEvents .ch0 [], rfl, rfl, rfl⟩
theorem test_meets_TempReadsTheSensor :
    channelOf 0#2 = some .ch0 ∧ ∀ i ∈ [0, 3], i < 4 ∧
      (fresh idlePair (List.replicate i true ++ false :: (bitsMsb 0xE4#8 ++ bitsMsb 0x87#8 ++ []))).answers =
        List.replicate i true ++ false :: (bitsMsb 0xE4#8 ++ bitsMsb 0x87#8 ++ []) := by decide
theorem test_meets_TempReportsNoSensor :
    channelOf 0#2 = some .ch0 ∧
      (fresh idlePair [true, true, true, true]).answers = List.replicate 4 true ++ [] := by decide
theorem test_meets_OwrstReportsTheStatus :
    channelOf 0#2 = some .ch0 ∧ ∀ st : Byte,
      (fresh idlePair (List.replicate 3 false ++ (bitsMsb st ++ []))).answers =
        List.replicate 3 false ++ (bitsMsb st ++ []) := ⟨by decide, fun _ => rfl⟩
theorem test_meets_OwrstStopsAtTheFirstNack :
    channelOf 0#2 = some .ch0 ∧ ∀ j ∈ [0, 2], j < 3 ∧
      (fresh idlePair (List.replicate j false ++ true :: [])).answers = List.replicate j false ++ true :: [] := by decide
theorem test_meets_OwcfgVerifiesTheReadBack :
    channelOf 0#2 = some .ch0 ∧
      (fresh idlePair (List.replicate 4 false ++ (bitsMsb Config.params.configByte ++ []))).answers =
        List.replicate 4 false ++ (bitsMsb Config.params.configByte ++ []) ∧
      ∃ rb, rb ≠ Config.params.configByte ∧
        (fresh idlePair (List.replicate 4 false ++ (bitsMsb rb ++ []))).answers =
          List.replicate 4 false ++ (bitsMsb rb ++ []) :=
  ⟨by decide, rfl, Config.params.configByte + 1#8, by bv_omega, rfl⟩
theorem test_meets_OwcfgResetsAfterANack :
    channelOf 0#2 = some .ch0 ∧ ∀ j ∈ [0, 3], j < 4 ∧
      (fresh idlePair (List.replicate j false ++ true :: [])).answers = List.replicate j false ++ true :: [] := by decide
theorem test_meets_OwdetIsResetThenConfig : 0#2 ≠ 3#2 ∧ 2#2 ≠ 3#2 := by decide
theorem test_meets_OwtrpReturnsTheFinalStatus :
    channelOf 0#2 = some .ch0 ∧ ∀ busy ∈ [[], List.replicate 199 0x01#8], busy.length < 200 ∧
      (∀ b ∈ busy, b.getLsbD 0 = true) ∧ (0x00#8).getLsbD 0 = false ∧
      (fresh idlePair (List.replicate 4 false ++ (busy.flatMap bitsMsb ++ bitsMsb 0x00#8 ++ bitsMsb 0x40#8 ++ []))).answers =
        List.replicate 4 false ++ (busy.flatMap bitsMsb ++ bitsMsb 0x00#8 ++ bitsMsb 0x40#8 ++ []) := by
  refine ⟨by decide, fun busy hb => ?_⟩
  have h : busy = [] ∨ busy = List.replicate 199 0x01#8 := by simpa only [List.mem_cons, List.not_mem_nil, or_false] using hb
  refine ⟨?_, fun b hb' => ?_, by decide, rfl⟩
  · rcases h with rfl | rfl <;> simp
  · rcases h with rfl | rfl
    · exact absurd hb' List.not_mem_nil
    · rw [List.eq_of_mem_replicate hb']; decide
theorem test_meets_OwtrpReportsThePollLimit :
    channelOf 0#2 = some .ch0 ∧ (List.replicate 200 0x01#8).length = 200 ∧
      (∀ b ∈ List.replicate 200 0x01#8, b.getLsbD 0 = true) ∧
      (fresh idlePair (List.replicate 4 false ++
          ((List.replicate 200 0x01#8).flatMap bitsMsb ++ bitsMsb 0x01#8 ++ []))).answers =
        List.replicate 4 false ++ ((List.replicate 200 0x01#8).flatMap bitsMsb ++ bitsMsb 0x01#8 ++ []) :=
  ⟨by decide, by decide, fun b hb => by rw [List.eq_of_mem_replicate hb]; decide, rfl⟩
theorem test_meets_OwtrpStopsAtTheFirstNack :
    channelOf 0#2 = some .ch0 ∧ ∀ j ∈ [0, 3], j < 4 ∧
      (fresh idlePair (List.replicate j false ++ true :: [])).answers = List.replicate j false ++ true :: [] := by decide
theorem test_meets_OwrstIsFourPrimitives :
    (0#2 : BitVec 2) ≠ 3#2 ∧ ∃ s1 s2 s3 s4 : State,
      exec (.start 0#2 (wAddr 0x18#7)) (fresh idlePair [false, false, false]) = .next s1 ∧ s1.res = 0x0000#16 ∧
      exec (.wrb 0#2 Config.params.cmdDrst) s1 = .next s2 ∧ s2.res = 0x0000#16 ∧
      exec (.rstart 0#2 (rAddr 0x18#7)) s2 = .next s3 ∧ s3.res = 0x0000#16 ∧
      exec (.rdb 0#2 .nack) s3 = .next s4 :=
  ⟨by decide, _, _, _, _, rfl, rfl, rfl, rfl, rfl, rfl, rfl⟩

end Sys2Proof.Tests
end

/-! Family 10_state.md. What one command, one CMD write and one step can do to the state, and the statements of
10_state.md that follow from it. -/

namespace Sys2Proof.Machine

/-! A run of primitives in terms of its trace. -/

/-- Events of one channel carry its pair along and leave the other contributions (10_state.md R40, R44). -/
theorem foldl_linesAfter_tagged (c : Channel) : ∀ (es : List Event) (m : Lines), (∀ e ∈ es, eventChannel e = c) →
    es.foldl linesAfter m = linesWith m c (es.foldl (pairAfter c) (linesPair m c))
  | [], m, _ => by simp
  | e :: es, m, h => by
    have head : linesAfter m e = linesWith m c (pairAfter c (linesPair m c) e) := by
      have he : eventChannel e = c := h e (by simp)
      subst he
      cases e <;> simp [linesAfter, pairAfter, eventChannel]
    simp [foldl_linesAfter_tagged c es _ (fun x hx => h x (by simp [hx])), head]

/-- The state after events of channel c: each contribution is what the drives made of it. CV is set where `br`. -/
def ranFrom (s : State) (c : Channel) (es : List Event) (br : Bool) : State :=
  ran s c es (es.foldl (pairAfter c) (s.pair c)) br

theorem ranFrom_ranFrom (s : State) (c : Channel) (es es' : List Event) (b b' : Bool) :
    ranFrom (ranFrom s c es b) c es' b' = ranFrom s c (es ++ es') (b || b') := by
  simp [ranFrom]

/-- One primitive emits events of its own channel only, and in BUSRST it sets no CV. -/
theorem Prim.eq_ranFrom {c : Channel} {rec : Bool} {s t : State} (h : Prim c rec s t) :
    ∃ es br, t = ranFrom s c es br ∧ (∀ e ∈ es, eventChannel e = c) ∧ (rec = true → br = false) := by
  cases h with
  | drv l v =>
    exact ⟨settled c l v, false, by simp [drv_eq_ran, ranFrom, settled, pairAfter],
      by simp [settled, eventChannel], fun _ => rfl⟩
  | smp l =>
    exact ⟨[.smp c l (answerAfter s [] c l)], false, by simp [smp_eq_ran, ranFrom, pairAfter],
      by simp [eventChannel], fun _ => rfl⟩
  | stretch =>
    exact ⟨[.wait c Config.stretchWait], false, by simp [wait_eq_ran, ranFrom, pairAfter],
      by simp [eventChannel], fun _ => rfl⟩
  | check holds _ outside =>
    exact ⟨[], !holds, by simp [checkContract_eq_ran holds c, ranFrom], by simp, by simp [outside]⟩

theorem Runs.eq_ranFrom {c : Channel} {rec : Bool} {s t : State} (h : Runs c rec s t) :
    ∃ es br, t = ranFrom s c es br ∧ (∀ e ∈ es, eventChannel e = c) ∧ (rec = true → br = false) := by
  induction h with
  | refl => exact ⟨[], false, (ran_none s c).symm, by simp, fun _ => rfl⟩
  | tail _ step ih =>
    obtain ⟨es, br, rfl, tagged, quiet⟩ := ih
    obtain ⟨es', br', rfl, tagged', quiet'⟩ := step.eq_ranFrom
    refine ⟨es ++ es', br || br', ranFrom_ranFrom .., fun e he => ?_, fun hr => by simp [quiet hr, quiet' hr]⟩
    exact (List.mem_append.mp he).elim (tagged e) (tagged' e)

/-! What a command and a CMD write can do. -/

/-- t is s after events of one channel and one commit: all that a command leaves. -/
structure Commands (c : Channel) (s t : State) (es : List Event) : Prop where
  tagged : ∀ e ∈ es, eventChannel e = c
  committed : ∃ br res err, t = finish res err (ranFrom s c es br)

/-- Every command ends in a next state (60_exceptions.md R220). -/
theorem exec_next (i : Instr) (s : State) : ∃ t, exec i s = .next t := by
  cases i <;> exact ⟨_, rfl⟩

theorem exec_commands_legal {i : Instr} {s t : State} {ch : Channel} (hc : channelOf i.chField = some ch)
    (h : exec i s = .next t) : ∃ es, Commands ch s t es := by
  obtain ⟨u, res, err, runs, rfl⟩ := exec_commits hc h
  obtain ⟨es, br, rfl, tagged, -⟩ := runs.eq_ranFrom
  exact ⟨es, tagged, br, res, err, rfl⟩

/-- The end of an illegal command is a command without events, on any channel. -/
theorem commands_illegal (c : Channel) (s : State) : Commands c s (illegalCommand s) [] :=
  ⟨by simp, false, 0x0000#16, .illegal, congrArg (finish 0x0000#16 .illegal) (ran_none s c).symm⟩

theorem exec_commands {i : Instr} {s t : State} (h : exec i s = .next t) : ∃ ch es, Commands ch s t es := by
  cases hc : channelOf i.chField with
  | some ch => exact ⟨ch, exec_commands_legal hc h⟩
  | none =>
    obtain rfl : illegalCommand s = t := by simpa [exec_illegal hc] using h
    exact ⟨.ch0, [], commands_illegal .ch0 s⟩

theorem runWord_of_decode {w : Word} {i : Instr} (h : decode w = .ok i) (s : State) : runWord w s = exec i s := by
  simp [runWord, h]

theorem runWord_next (w : Word) (s : State) : ∃ t, runWord w s = .next t := by
  unfold runWord
  split
  · exact exec_next _ s
  · exact ⟨_, rfl⟩

theorem runWord_commands {w : Word} {s t : State} (h : runWord w s = .next t) : ∃ ch es, Commands ch s t es := by
  unfold runWord at h
  split at h
  · exact exec_commands h
  · obtain rfl : illegalCommand s = t := by simpa using h
    exact ⟨.ch0, [], commands_illegal .ch0 s⟩

section Fields

variable {c : Channel} {s t : State} {es : List Event}

theorem Commands.cmd (h : Commands c s t es) : t.cmd = s.cmd := by
  obtain ⟨br, res, err, rfl⟩ := h.committed; rfl

theorem Commands.inputs (h : Commands c s t es) : t.inputs = s.inputs := by
  obtain ⟨br, res, err, rfl⟩ := h.committed; rfl

theorem Commands.trace (h : Commands c s t es) : t.trace = s.trace ++ es := by
  obtain ⟨br, res, err, rfl⟩ := h.committed; simp [ranFrom]

theorem Commands.answers (h : Commands c s t es) : t.answers = s.answers.drop (countSmp es) := by
  obtain ⟨br, res, err, rfl⟩ := h.committed; rfl

theorem Commands.lines (h : Commands c s t es) : t.lines = es.foldl linesAfter s.lines := by
  obtain ⟨br, res, err, rfl⟩ := h.committed
  rw [foldl_linesAfter_tagged c es _ h.tagged]; rfl

theorem Commands.pair_other (h : Commands c s t es) {c' : Channel} (hc : c' ≠ c) : t.pair c' = s.pair c' := by
  obtain ⟨br, res, err, rfl⟩ := h.committed
  exact linesPair_linesWith_other s.lines hc _

theorem Commands.reserved (h : Commands c s t es) : rstatReserved t.rstat = rstatReserved s.rstat := by
  obtain ⟨br, res, err, rfl⟩ := h.committed
  cases br <;> simp [ranFrom]

theorem Commands.errLegal (h : Commands c s t es) : rstatErrLegal t.rstat = true := by
  obtain ⟨br, res, err, rfl⟩ := h.committed
  exact rstatErrLegal_withErr _ err

theorem Commands.cv_stays (h : Commands c s t es) (set : rstatCv s.rstat = true) : rstatCv t.rstat = true := by
  obtain ⟨br, res, err, rfl⟩ := h.committed
  cases br <;> simp [ranFrom, set]

end Fields

/-! What a step can do. -/

theorem step_idle {s : State} (h : s.inputs = []) : step s = .next s := by
  simp [step, h]

theorem step_action {s : State} {a : Input} {rest : List Input} (h : s.inputs = a :: rest) :
    step s = hostAction a { s with inputs := rest } := by
  simp [step, h]

theorem step_writeCmd {s : State} {w : Word} {rest : List Input} (h : s.inputs = .write .cmd w :: rest) :
    step s = runWord w { s with inputs := rest, cmd := w } := step_action h

/-- The actions that start no command and are no reset: ignored writes and reads (10_state.md R32 to R34). -/
def Input.Quiet : Input → Prop
  | .write .cmd _ => False
  | .write .res _ => True
  | .write .rstat _ => True
  | .read _ => True
  | .reset => False

theorem step_quiet {s : State} {a : Input} {rest : List Input} (h : s.inputs = a :: rest) (q : a.Quiet) :
    step s = .next { s with inputs := rest } := by
  rw [step_action h]
  match a, q with
  | .write .res _, _ => rfl
  | .write .rstat _, _ => rfl
  | .read _, _ => rfl

/-- A step idles, takes a quiet action, runs a command with CMD set, or resets. -/
theorem step_cases {s t : State} (h : step s = .next t) :
    (s.inputs = [] ∧ t = s) ∨
    (∃ a rest, s.inputs = a :: rest ∧ a.Quiet ∧ t = { s with inputs := rest }) ∨
    (∃ w rest ch es, s.inputs = .write .cmd w :: rest ∧ Commands ch { s with inputs := rest, cmd := w } t es) ∨
    (∃ rest, s.inputs = .reset :: rest ∧ t = resetEngine { s with inputs := rest }) := by
  have quiet {a : Input} {rest : List Input} (hs : s.inputs = a :: rest) (q : a.Quiet) :
      ∃ a rest, s.inputs = a :: rest ∧ a.Quiet ∧ t = { s with inputs := rest } :=
    ⟨a, rest, hs, q, (Host.Outcome.next.inj ((step_quiet hs q).symm.trans h)).symm⟩
  match hs : s.inputs with
  | [] => exact .inl ⟨rfl, (Host.Outcome.next.inj ((step_idle hs).symm.trans h)).symm⟩
  | .write .cmd w :: rest =>
    rw [step_writeCmd hs] at h
    obtain ⟨ch, es, hrun⟩ := runWord_commands h
    exact .inr (.inr (.inl ⟨w, rest, ch, es, rfl, hrun⟩))
  | .write .res v :: rest => exact .inr (.inl (hs ▸ quiet hs trivial))
  | .write .rstat v :: rest => exact .inr (.inl (hs ▸ quiet hs trivial))
  | .read r :: rest => exact .inr (.inl (hs ▸ quiet hs trivial))
  | .reset :: rest =>
    rw [step_action hs] at h
    exact .inr (.inr (.inr ⟨rest, rfl, (Host.Outcome.next.inj h).symm⟩))

/-- Between commands and resets a step changes nothing but the host's list (60_exceptions.md R232). -/
theorem step_between {s t : State} (noCmd : ∀ w, s.inputs.head? ≠ some (.write .cmd w))
    (noReset : s.inputs.head? ≠ some .reset) (h : step s = .next t) : ∃ ins, t = { s with inputs := ins } := by
  rcases step_cases h with ⟨-, rfl⟩ | ⟨-, rest, -, -, rfl⟩ | ⟨w, _, _, _, hs, -⟩ | ⟨_, hs, -⟩
  · exact ⟨t.inputs, rfl⟩
  · exact ⟨rest, rfl⟩
  · exact absurd (by simp [hs]) (noCmd w)
  · exact absurd (by simp [hs]) noReset

end Sys2Proof.Machine

/-! The contract checks inside the commands (10_state.md R51). -/

namespace Sys2Proof.Machine

/-- t is s after some events on channel c that end with the pair p and set CV where `br`. -/
def EndsWith (c : Channel) (p : LinePair) (br : Bool) (s t : State) : Prop := ∃ es, t = ran s c es p br

section Bodies

variable {c : Channel} {p : LinePair} {br : Bool} {s t : State}

theorem EndsWith.refl (c : Channel) (s : State) : EndsWith c (s.pair c) false s s := ⟨[], (ran_none s c).symm⟩

theorem EndsWith.cv (h : EndsWith c p br s t) : rstatCv t.rstat = (rstatCv s.rstat || br) := by
  obtain ⟨es, rfl⟩ := h
  cases br <;> simp

theorem EndsWith.startBody (h : EndsWith c p br s t) (ab : Byte) :
    EndsWith c heldPair (br || !startReady p) s (startBody c ab t).2 := by
  obtain ⟨es, rfl⟩ := h
  exact ⟨_, congrArg Prod.snd (startBody_ran s c es p br ab)⟩

/-- From the idle bus START's check does not fire. -/
theorem EndsWith.startBody_idle (h : EndsWith c idlePair br s t) (ab : Byte) :
    EndsWith c heldPair br s (Machine.startBody c ab t).2 := by
  simpa [startReady, idlePair] using h.startBody ab

theorem EndsWith.wrbBody (h : EndsWith c p br s t) (b : Byte) : EndsWith c heldPair br s (wrbBody c b t).2 := by
  obtain ⟨es, rfl⟩ := h
  exact ⟨_, congrArg Prod.snd (wrbBody_ran s c es p br b)⟩

theorem EndsWith.rstartBody (h : EndsWith c p br s t) (ab : Byte) :
    EndsWith c heldPair (br || !rstartReady p) s (rstartBody c ab t).2 := by
  obtain ⟨es, rfl⟩ := h
  exact ⟨_, congrArg Prod.snd (rstartBody_ran s c es p br ab)⟩

/-- On a held bus RSTART's check does not fire. -/
theorem EndsWith.rstartBody_held (h : EndsWith c heldPair br s t) (ab : Byte) :
    EndsWith c heldPair br s (Machine.rstartBody c ab t).2 := by
  simpa [rstartReady, heldPair] using h.rstartBody ab

theorem EndsWith.stopBody (h : EndsWith c p br s t) :
    EndsWith c idlePair (br || !stopReady p) s (stopBody c t) := by
  obtain ⟨es, rfl⟩ := h
  exact ⟨_, stopBody_ran s c es p br⟩

/-- On a held bus STOP's check does not fire. -/
theorem EndsWith.stopBody_held (h : EndsWith c heldPair br s t) : EndsWith c idlePair br s (Machine.stopBody c t) := by
  simpa [stopReady, heldPair] using h.stopBody

theorem EndsWith.rdbBody_ack (h : EndsWith c p br s t) : EndsWith c heldPair br s (rdbBody c .ack t).2 := by
  obtain ⟨es, rfl⟩ := h
  exact ⟨_, congrArg Prod.snd (rdbBody_ran s c es p br .ack)⟩

theorem EndsWith.rdbBody_nack (h : EndsWith c p br s t) : EndsWith c idlePair br s (rdbBody c .nack t).2 := by
  obtain ⟨es, rfl⟩ := h
  exact ⟨_, congrArg Prod.snd (rdbBody_ran s c es p br .nack)⟩

/-- Transfers that each keep a held bus held and CV as it is do so up to the first NACK. -/
theorem EndsWith.untilNack : ∀ (fs : List (State → Ack × State)) {t : State},
    (∀ f ∈ fs, ∀ u, EndsWith c heldPair br s u → EndsWith c heldPair br s (f u).2) →
    EndsWith c heldPair br s t → EndsWith c heldPair br s (untilNack fs t).2
  | [], _, _, h => h
  | f :: fs, _, hf, h => by
    have first := hf f (by simp) _ h
    simp only [Machine.untilNack]
    split
    · exact EndsWith.untilNack fs (fun g hg => hf g (by simp [hg])) first
    · exact first

/-- Of the first transfers of a bridge command only START's check can fire (43_onewire_bridge.md R181, R182, R184). -/
theorem EndsWith.bridgeOpen (h : EndsWith c p br s t) (a r : Byte) (bytes : List Byte) :
    EndsWith c heldPair (br || !startReady p) s
      (Machine.untilNack (Machine.startBody c a :: (bytes.map (Machine.wrbBody c) ++ [Machine.rstartBody c r])) t).2 := by
  have start := h.startBody a
  have rest : ∀ f ∈ bytes.map (Machine.wrbBody c) ++ [Machine.rstartBody c r], ∀ u,
      EndsWith c heldPair (br || !startReady p) s u → EndsWith c heldPair (br || !startReady p) s (f u).2 := by
    intro f hf u hu
    simp only [List.mem_append, List.mem_map, List.mem_singleton] at hf
    rcases hf with ⟨b, -, rfl⟩ | rfl
    · exact hu.wrbBody b
    · exact hu.rstartBody_held r
  simp only [Machine.untilNack]
  split
  · exact EndsWith.untilNack _ rest start
  · exact start

theorem EndsWith.owrstBody (h : EndsWith c p br s t) (q : Config.Params) (a7 : Addr7) :
    EndsWith c idlePair (br || !startReady p) s (owrstBody q c a7 t).2 := by
  have opened := h.bridgeOpen (writeAddress a7) (readAddress a7) [q.cmdDrst]
  simp only [Machine.owrstBody]
  split
  · exact opened.stopBody_held
  · exact opened.rdbBody_nack

/-- From the idle bus, as every failed transfer leaves it, OWRST_body sets no CV. -/
theorem EndsWith.owrstBody_idle (h : EndsWith c idlePair br s t) (q : Config.Params) (a7 : Addr7) :
    EndsWith c idlePair br s (Machine.owrstBody q c a7 t).2 := by
  simpa [startReady, idlePair] using h.owrstBody q a7

theorem EndsWith.owcfgBody (h : EndsWith c p br s t) (q : Config.Params) (a7 : Addr7) :
    EndsWith c idlePair (br || !startReady p) s (owcfgBody q c a7 t).2 := by
  have opened := h.bridgeOpen (writeAddress a7) (readAddress a7) [q.cmdWcfg, q.configByte]
  simp only [Machine.owcfgBody]
  split
  · exact opened.stopBody_held.owrstBody_idle q a7
  · split
    · exact opened.rdbBody_nack
    · exact opened.rdbBody_nack.owrstBody_idle q a7

theorem EndsWith.detect (h : EndsWith c p br s t) (q : Config.Params) (a7 : Addr7) :
    EndsWith c idlePair (br || !startReady p) s (detect q c a7 t).2 := by
  have reset := h.owrstBody q a7
  simp only [Machine.detect]
  split
  · simpa [startReady, idlePair] using reset.owcfgBody q a7
  · exact reset

theorem EndsWith.pollBusy : ∀ (n : Nat) (st : Byte) {t : State}, EndsWith c heldPair br s t →
    EndsWith c heldPair br s (pollBusy c n st t).2
  | 0, _, _, h => h
  | n + 1, st, t, h => by
    simp only [Machine.pollBusy]
    split
    · exact EndsWith.pollBusy n _ h.rdbBody_ack
    · exact h

/-- The state before the commit of OWTRP's polling (43_onewire_bridge.md R184). -/
theorem EndsWith.pollTriplet (h : EndsWith c heldPair br s t) (q : Config.Params) (a7 : Addr7) :
    ∃ u res err, pollTriplet q c a7 t = finish res err u ∧ EndsWith c idlePair br s u := by
  have final (st : Byte) :=
    (EndsWith.pollBusy (Config.pollLimit - 1) st h.rdbBody_ack).rdbBody_nack
  simp only [Machine.pollTriplet]
  split
  · exact ⟨_, _, _, rfl, (final _).owrstBody_idle q a7⟩
  · exact ⟨_, _, _, rfl, final _⟩

theorem EndsWith.triplet (h : EndsWith c p br s t) (q : Config.Params) (dir : Bool) (a7 : Addr7) :
    ∃ u res err, triplet q c dir a7 t = finish res err u ∧ EndsWith c idlePair (br || !startReady p) s u := by
  have opened := h.bridgeOpen (writeAddress a7) (readAddress a7) [q.cmd1wt, dirByte dir]
  simp only [Machine.triplet]
  split
  · exact ⟨_, _, _, rfl, opened.stopBody_held⟩
  · exact opened.pollTriplet q a7

/-- TEMP's sweep from the idle bus, over the addresses still to try (42_temperature.md R161). -/
theorem EndsWith.sweepTemp_idle (q : Config.Params) : ∀ (is : List Nat) {t : State}, EndsWith c idlePair br s t →
    ∃ u res err, sweepTemp q c is t = finish res err u ∧ EndsWith c idlePair br s u
  | [], _, h => ⟨_, _, _, rfl, h⟩
  | i :: is, t, h => by
    have first := h.startBody_idle (tempAddress q.tempBase7 i)
    simp only [sweepTemp]
    split
    · exact ⟨_, _, _, rfl, first.rdbBody_ack.rdbBody_nack⟩
    · exact EndsWith.sweepTemp_idle q is first.stopBody_held

/-- Only the first START of the sweep can find a pair it may not start from. -/
theorem EndsWith.sweepTemp (h : EndsWith c p br s t) (q : Config.Params) (i : Nat) (is : List Nat) :
    ∃ u res err, sweepTemp q c (i :: is) t = finish res err u ∧ EndsWith c idlePair (br || !startReady p) s u := by
  have first := h.startBody (tempAddress q.tempBase7 i)
  simp only [Machine.sweepTemp]
  split
  · exact ⟨_, _, _, rfl, first.rdbBody_ack.rdbBody_nack⟩
  · exact EndsWith.sweepTemp_idle q is first.stopBody_held

end Bodies

theorem recover_cv (c : Channel) (s : State) : rstatCv (recover c s).2.rstat = rstatCv s.rstat := by
  obtain ⟨es, br, eq, -, quiet⟩ := (recover_runs c s s .refl).eq_ranFrom
  simp [eq, quiet rfl, ranFrom]

/-- CV after a command on a legal channel: only the host's duty decides it (70_reset_and_hazards.md R254, R255, R257). -/
theorem exec_cv {i : Instr} {s t : State} {ch : Channel} (hc : channelOf i.chField = some ch)
    (h : exec i s = .next t) : rstatCv t.rstat = (rstatCv s.rstat || !hostMayIssue (s.pair ch) i) := by
  have body {c : BitVec 2} {b : Channel → State} {br : Bool} (hc : channelOf c = some ch)
      (h : onChannel c s b = .next t)
      (e : ∃ u res err, b ch = finish res err u ∧ rstatCv u.rstat = (rstatCv s.rstat || br)) :
      rstatCv t.rstat = (rstatCv s.rstat || br) := by
    obtain ⟨u, res, err, hb, cv⟩ := e
    obtain rfl : b ch = t := by simpa [onChannel_some hc] using h
    simp [hb, cv]
  have start := EndsWith.refl ch s
  cases i with
  | start c ab => exact body hc h ⟨_, _, _, rfl, (start.startBody ab).cv⟩
  | rstart c ab => exact body hc h ⟨_, _, _, rfl, (start.rstartBody ab).cv⟩
  | stop c => exact body hc h ⟨_, _, _, rfl, start.stopBody.cv⟩
  | wrb c b => exact body hc h ⟨_, _, _, rfl, (start.wrbBody b).cv⟩
  | rdb c k =>
    cases k with
    | ack => exact body hc h ⟨_, _, _, rfl, start.rdbBody_ack.cv⟩
    | nack => exact body hc h ⟨_, _, _, rfl, start.rdbBody_nack.cv⟩
  | busrst c => exact body hc h ⟨_, _, _, rfl, by simp [recover_cv, hostMayIssue]⟩
  | temp c =>
    obtain ⟨u, res, err, eq, ends⟩ := start.sweepTemp Config.params 0 [1, 2, 3]
    exact body hc h ⟨u, res, err, eq, ends.cv⟩
  | owrst c a7 => exact body hc h ⟨_, _, _, rfl, (start.owrstBody Config.params a7).cv⟩
  | owcfg c a7 => exact body hc h ⟨_, _, _, rfl, (start.owcfgBody Config.params a7).cv⟩
  | owdet c a7 => exact body hc h ⟨_, _, _, rfl, (start.detect Config.params a7).cv⟩
  | owtrp c dir a7 =>
    obtain ⟨u, res, err, eq, ends⟩ := start.triplet Config.params dir a7
    exact body hc h ⟨u, res, err, eq, ends.cv⟩

end Sys2Proof.Machine

/-! The decoder reads back what the encoder wrote (30_encoding.md R80 to R83). -/

namespace Sys2Proof

@[simp] theorem Machine.ackOfBit_ackBit (k : Ack) : ackOfBit (ackBit k) = k := by
  cases k <;> rfl

/-- The opcode map on a word made from its fields: the command is in the row of its opcode. -/
theorem decodeOp_encode (i : Instr) : decodeOp (encode i) = .ok i := by
  cases i <;> simp [encode, decodeOp, needFlagZero, needDataZero, needAddress]

theorem encode_wordFields : ∀ i : Instr, Laws.WordFields.Statement i
  | .start c ab => Laws.WordFields.start c ab
  | .rstart c ab => Laws.WordFields.rstart c ab
  | .stop c => Laws.WordFields.stop c
  | .wrb c b => Laws.WordFields.wrb c b
  | .rdb c k => Laws.WordFields.rdb c k
  | .busrst c => Laws.WordFields.busrst c
  | .temp c => Laws.WordFields.temp c
  | .owrst c a7 => Laws.WordFields.owrst c a7
  | .owcfg c a7 => Laws.WordFields.owcfg c a7
  | .owdet c a7 => Laws.WordFields.owdet c a7
  | .owtrp c dir a7 => Laws.WordFields.owtrp c dir a7

theorem decode_encode {i : Instr} (h : i.WellFormed) : decode (encode i) = .ok i := by
  obtain ⟨ch, rsv⟩ := encode_wordFields i
  simp [decode, ch, rsv, h, decodeOp_encode]

namespace Machine

/-- A whole 16-bit word is its own table word (log 16). -/
@[simp] theorem tableWord_toNat (w : Word) : tableWord 16 w.toNat = w := by
  simp [tableWord, Nat.mod_eq_of_lt w.isLt]

end Machine

end Sys2Proof

/-! The statements of 10_state.md. -/

namespace Sys2Proof.Machine

/-- Settles O18: the trace and the pairs are those of a run on the channel, and the run looks at no other channel. -/
theorem commandTouchesOnlyItsChannel : Obligations.CommandTouchesOnlyItsChannel := by
  intro i s t ch hc h
  obtain ⟨es, run⟩ := exec_commands_legal hc h
  refine ⟨fun c other => run.pair_other other, ⟨es, run.trace, run.tagged⟩, fun m own => ?_⟩
  have same := exec_transparent (transparent_otherLines ch m) (finish_otherLines ch m) hc h
  rwa [← own, linesWith_linesPair] at same

/-- Settles O21: a command's contributions are those its events carry, and any other action leaves them. -/
theorem onlyDrivesWriteContributions : Obligations.OnlyDrivesWriteContributions := by
  refine ⟨fun i s t es h trace => ?_, fun s t noCmd noReset h => ?_⟩
  · obtain ⟨ch, es', run⟩ := exec_commands h
    obtain rfl : es' = es := List.append_cancel_left (run.trace.symm.trans trace)
    exact run.lines
  · obtain ⟨ins, rfl⟩ := step_between noCmd noReset h
    rfl

theorem reset_statusLegal : State.reset.StatusLegal := by decide

/-- Settles O25: a command keeps the reserved bits and commits a legal code, a reset clears RSTAT, nothing else writes it. -/
theorem statusStaysLegal : Obligations.StatusStaysLegal := by
  rintro s t ⟨reserved, code⟩ h
  rcases step_cases h with ⟨-, rfl⟩ | ⟨a, rest, -, -, rfl⟩ | ⟨w, rest, ch, es, -, run⟩ | ⟨rest, -, rfl⟩
  · exact ⟨reserved, code⟩
  · exact ⟨reserved, code⟩
  · exact ⟨run.reserved.trans reserved, run.errLegal⟩
  · exact reset_statusLegal

/-- Settles O29: the checks inside a command find the pair that the transfers before them left. -/
theorem hostDutiesAreTheOnlyChecks : Obligations.HostDutiesAreTheOnlyChecks :=
  fun _ _ _ _ hc h => exec_cv hc h

/-- Settles O14: a CMD write sets CMD and runs its word, and no command and no other action but a reset writes CMD. -/
theorem cmdReadsBackLastWrite : Obligations.CmdReadsBackLastWrite := by
  refine ⟨fun s w rest hs => ?_, fun s t noCmd noReset h => ?_, fun s r rest hs => step_quiet hs trivial, fun i s t h => ?_⟩
  · obtain ⟨t, ht⟩ := runWord_next w { s with inputs := rest, cmd := w }
    obtain ⟨ch, es, run⟩ := runWord_commands ht
    exact ⟨t, (step_writeCmd hs).trans ht, run.cmd, run.inputs, fun i hi => (runWord_of_decode hi _).symm.trans ht⟩
  · obtain ⟨ins, rfl⟩ := step_between noCmd noReset h
    rfl
  · obtain ⟨ch, es, run⟩ := exec_commands h
    exact run.cmd

/-- Settles O19: the frame of a run of primitives and one commit. -/
theorem commandFrame : Obligations.CommandFrame := by
  intro i s t h
  obtain ⟨ch, es, run⟩ := exec_commands h
  exact ⟨run.cmd, run.inputs, run.reserved, run.cv_stays, es, run.trace, run.answers⟩

/-- Settles O27: each body's check looks at the line it names, its events are those of its trace, and only a reset clears CV. -/
theorem contractBitRecordsViolations : Obligations.ContractBitRecordsViolations := by
  refine ⟨fun c ab s => ?_, fun c ab s => ?_, fun s t h noReset cv => ?_⟩
  · have start := EndsWith.refl c s
    rw [← startReady_iff, ← rstartReady_iff, ← stopReady_iff]
    exact ⟨(start.startBody ab).cv, (start.rstartBody ab).cv, start.stopBody.cv⟩
  · exact ⟨answerAfter s (startLead c ab) c .sda, answerAfter s (rstartLead c ab) c .sda,
      by simp [startBody_eq], by simp [rstartBody_eq], by simp [stopBody_eq]⟩
  · rcases step_cases h with ⟨-, rfl⟩ | ⟨a, rest, -, -, rfl⟩ | ⟨w, rest, ch, es, -, run⟩ | ⟨rest, hs, -⟩
    · exact cv
    · exact cv
    · exact run.cv_stays cv
    · exact absurd (by simp [hs]) noReset

/-- Settles O12: a CMD write is the run of its word, and the word decodes to i. -/
theorem stepRunsDecodedCommand : Obligations.StepRunsDecodedCommand :=
  fun _ _ _ _ hs hw => (step_writeCmd hs).trans (runWord_of_decode hw _)

/-- Settles O13: the word written is the encoded one, and it decodes to the command. -/
theorem encodedWordRunsNext : Obligations.EncodedWordRunsNext := by
  intro i s wf
  have hs : (s.withFetchWord 16 (encode i).toNat).inputs = .write .cmd (encode i) :: s.inputs := by
    simp [State.withFetchWord, withNextCommand]
  exact stepRunsDecodedCommand _ _ _ i hs (decode_encode wf)

/-- What the host reads from RSTAT, as a number: ERR, and CV in bit 7 (10_state.md R34). -/
theorem rstatRead_toNat (r : Byte) :
    ((rstatRead r).setWidth 16).toNat = (rstatErr r).toNat + 128 * (rstatCv r).toNat := by
  revert r; decide

/-- Settles O15: the actions it names are the quiet ones. -/
theorem otherHostActionsChangeNothing : Obligations.OtherHostActionsChangeNothing := by
  refine ⟨fun s rest a hs ha => ?_, fun s hs => step_idle hs, fun s => ⟨rfl, rstatRead_toNat s.rstat⟩⟩
  rcases ha with ⟨v, rfl⟩ | ⟨v, rfl⟩ | ⟨r, rfl⟩ <;> exact step_quiet hs trivial

/-- Settles O26: RSTAT is 0 at reset. -/
theorem resetStatusIsLegal : Obligations.ResetStatusIsLegal := ⟨reset_statusLegal, by decide⟩

end Sys2Proof.Machine

/-! Family 20_memory.md. The events of a command in their order: what stands before and after each, and the answers the
samples carry. -/

namespace Sys2Proof.Machine

/-! The events of a list, each at its place. -/

/-- P holds of every event of the list, with the events before it and the events after it. -/
def EveryEvent (P : List Event → Event → List Event → Prop) (es : List Event) : Prop :=
  ∀ pre e post, es = pre ++ e :: post → P pre e post

@[simp] theorem everyEvent_nil (P : List Event → Event → List Event → Prop) : EveryEvent P [] := by
  intro pre e post h
  simp at h

@[simp] theorem everyEvent_cons (P : List Event → Event → List Event → Prop) (e : Event) (es : List Event) :
    EveryEvent P (e :: es) ↔ P [] e es ∧ EveryEvent (fun pre => P (e :: pre)) es := by
  constructor
  · exact fun h => ⟨h [] e es rfl, fun pre x post hx => h (e :: pre) x post (by simp [hx])⟩
  · rintro ⟨head, tail⟩ pre x post h
    cases pre with
    | nil => obtain ⟨rfl, rfl⟩ := List.cons.inj h; exact head
    | cons y pre => obtain ⟨rfl, rfl⟩ := List.cons.inj h; exact tail pre x post rfl

theorem everyEvent_append (P : List Event → Event → List Event → Prop) (es es' : List Event) :
    EveryEvent P (es ++ es') ↔
      EveryEvent (fun pre e post => P pre e (post ++ es')) es ∧ EveryEvent (fun pre => P (es ++ pre)) es' := by
  induction es generalizing P with
  | nil => simp
  | cons e es ih => simp [ih, and_assoc]

/-! The events of a run of primitives, in their order. -/

/-- The pair of channel c after the events es of a run that starts in s. -/
def pairAt (s : State) (c : Channel) (es : List Event) : LinePair := es.foldl (pairAfter c) (s.pair c)

/-- The event lists that a run of primitives on channel c can emit from the state s, grown at their end (20_memory.md R64,
R70, R71); `rec` says whether the command is BUSRST. -/
inductive Emits (c : Channel) (rec : Bool) (s : State) : List Event → Prop where
  | none : Emits c rec s []
  | drv {es : List Event} (before : Emits c rec s es) (l : Line) (v : Drive) : Emits c rec s (es ++ settled c l v)
  | smp {es : List Event} (before : Emits c rec s es) (l : Line) (line : pairLine (pairAt s c es) l = .z)
      (inside : rec = true → pairAt s c es = .released) (outside : rec = false → l = .sda) :
      Emits c rec s (es ++ [.smp c l (answerAfter s es c l)])
  | stretch {es : List Event} (before : Emits c rec s es) (inside : rec = true) :
      Emits c rec s (es ++ [.wait c Config.stretchWait])

theorem Runs.emits {c : Channel} {rec : Bool} {s t : State} (h : Runs c rec s t) :
    ∃ es br, t = ranFrom s c es br ∧ Emits c rec s es := by
  induction h with
  | refl => exact ⟨[], false, (ran_none s c).symm, .none⟩
  | tail _ step ih =>
    obtain ⟨es, br, rfl, before⟩ := ih
    cases step with
    | drv l v =>
      exact ⟨es ++ settled c l v, br, by simp [ranFrom, drv_ran, settled, pairAfter], before.drv l v⟩
    | smp l _ line inside outside =>
      simp only [State.line, ranFrom, ran_pair] at line inside
      exact ⟨_, br, by simp [ranFrom, smp_ran, pairAfter], before.smp l line inside outside⟩
    | stretch _ inside =>
      exact ⟨_, br, by simp [ranFrom, wait_ran, pairAfter], before.stretch inside⟩
    | check holds => exact ⟨es, br || !holds, by simp [ranFrom, checkContract_ran], before⟩

/-- A command's events are those of a run of primitives on one channel; an illegal command has none. -/
theorem exec_emits {i : Instr} {s t : State} {es : List Event} (h : exec i s = .next t) (trace : t.trace = s.trace ++ es) :
    ∃ ch, Emits ch (isRecovery i) s es := by
  cases hc : channelOf i.chField with
  | some ch =>
    obtain ⟨u, res, err, runs, rfl⟩ := exec_commits hc h
    obtain ⟨es', br, rfl, emits⟩ := runs.emits
    obtain rfl : es' = es := by simpa [ranFrom] using trace
    exact ⟨ch, emits⟩
  | none =>
    obtain rfl : illegalCommand s = t := by simpa [exec_illegal hc] using h
    obtain rfl : es = [] := by simpa [illegalCommand] using trace
    exact ⟨.ch0, .none⟩

theorem isRecovery_iff (i : Instr) : isRecovery i = true ↔ ∃ f, i = .busrst f := by
  cases i <;> simp [isRecovery]

/-! Settling waits (20_memory.md R64). -/

/-- What stands beside an event: a drive's settling wait after it, none after a sample, and a wait's drive before it where
it is not BUSRST's own. -/
def SettlesAt (rec : Bool) (pre : List Event) : Event → List Event → Prop
  | .drv c _ _, post => post.head? = some (.wait c 1)
  | .smp _ _ _, post => ∀ d, post.head? ≠ some (.wait d 1)
  | .wait c n, _ => (n = 1 ∧ ∃ pre' l v, pre = pre' ++ [.drv c l v]) ∨ (n = 20000 ∧ rec = true)

/-- Later events that do not begin with a settling wait disturb none of this. -/
theorem SettlesAt.append {rec : Bool} {pre post : List Event} {e : Event} (h : SettlesAt rec pre e post)
    {block : List Event} (start : ∀ d, block.head? ≠ some (.wait d 1)) : SettlesAt rec pre e (post ++ block) := by
  cases e with
  | drv c l v =>
    simp only [SettlesAt] at h ⊢
    simp [h]
  | smp c l b =>
    cases post with
    | nil => exact start
    | cons x post => exact h
  | wait c n => exact h

theorem EveryEvent.settles_append {rec : Bool} {es block : List Event} (h : EveryEvent (SettlesAt rec) es)
    (start : ∀ d, block.head? ≠ some (.wait d 1)) (own : EveryEvent (fun pre => SettlesAt rec (es ++ pre)) block) :
    EveryEvent (SettlesAt rec) (es ++ block) :=
  (everyEvent_append ..).mpr ⟨fun pre e post split => (h pre e post split).append start, own⟩

theorem Emits.settles {c : Channel} {rec : Bool} {s : State} {es : List Event} (h : Emits c rec s es) :
    EveryEvent (SettlesAt rec) es := by
  induction h with
  | none => simp
  | drv _ l v ih => exact ih.settles_append (by simp [settled]) (by simp [settled, SettlesAt])
  | smp _ l _ _ _ ih => exact ih.settles_append (by simp) (by simp [SettlesAt])
  | stretch _ inside ih => exact ih.settles_append (by simp) (by simp [SettlesAt, inside])

/-- Settles O20: a run's events are drives each with its wait, samples, and in BUSRST the waits for a stretched clock. -/
theorem everyDriveSettles : Obligations.EveryDriveSettles := by
  intro i s t es h trace
  obtain ⟨ch, emits⟩ := exec_emits h trace
  have at_place := emits.settles
  refine ⟨fun pre c l v post split => at_place _ _ _ split, fun pre c l b post split => at_place _ _ _ split,
    fun pre c n post split => ?_⟩
  exact (at_place _ _ _ split).imp_right (And.imp_right (isRecovery_iff i).mp)

/-! Samples (20_memory.md R70, R71). -/

/-- What a sample of a run on channel c from the state s is: the environment's answer there, taken of a released line. -/
def SampledAt (c : Channel) (rec : Bool) (s : State) (pre : List Event) : Event → List Event → Prop
  | .drv _ _ _, _ => True
  | .smp d l b, _ => d = c ∧ b = answerAfter s pre c l ∧ pairLine (pairAt s c pre) l = .z ∧
      (rec = true → pairAt s c pre = .released) ∧ (rec = false → l = .sda)
  | .wait _ _, _ => True

theorem Emits.sampled {c : Channel} {rec : Bool} {s : State} {es : List Event} (h : Emits c rec s es) :
    EveryEvent (SampledAt c rec s) es := by
  have grow {es block : List Event} (h : EveryEvent (SampledAt c rec s) es)
      (own : EveryEvent (fun pre => SampledAt c rec s (es ++ pre)) block) : EveryEvent (SampledAt c rec s) (es ++ block) :=
    (everyEvent_append ..).mpr ⟨fun pre e post split => by cases e <;> exact h pre _ post split, own⟩
  induction h with
  | none => simp
  | drv _ l v ih => exact grow ih (by simp [settled, SampledAt])
  | smp _ l line inside outside ih => exact grow ih (by simpa [SampledAt] using ⟨line, inside, outside⟩)
  | stretch _ inside ih => exact grow ih (by simp [SampledAt])

theorem Emits.tagged {c : Channel} {rec : Bool} {s : State} {es : List Event} (h : Emits c rec s es) :
    ∀ e ∈ es, eventChannel e = c := by
  induction h with
  | none => simp
  | drv _ l v ih => simpa [settled, or_imp, forall_and, eventChannel] using ih
  | smp _ l _ _ _ ih => simpa [or_imp, forall_and, eventChannel] using ih
  | stretch _ _ ih => simpa [or_imp, forall_and, eventChannel] using ih

/-- The contributions that events of channel c carry along are the pair they leave on it. -/
theorem linesPair_foldl_linesAfter {c : Channel} {es : List Event} (tagged : ∀ e ∈ es, eventChannel e = c) (s : State) :
    linesPair (es.foldl linesAfter s.lines) c = pairAt s c es := by
  simp [foldl_linesAfter_tagged c es _ tagged, pairAt, State.pair]

/-- Settles O22: a run's samples take the answers in their order. -/
theorem samplesAreEnvironmentAnswers : Obligations.SamplesAreEnvironmentAnswers := by
  intro i s t es h trace pre c l b post split
  obtain ⟨ch, emits⟩ := exec_emits h trace
  obtain ⟨rfl, answer, -⟩ := emits.sampled _ _ _ split
  exact answer

/-- Settles O24: a run samples released lines only, and the pair is what the events before the sample made of it. -/
theorem onlyReleasedLinesAreSampled : Obligations.OnlyReleasedLinesAreSampled := by
  intro i s t es h trace pre c l b post split
  obtain ⟨ch, emits⟩ := exec_emits h trace
  obtain ⟨rfl, -, line, inside, outside⟩ := emits.sampled _ _ _ split
  have tagged : ∀ e ∈ pre, eventChannel e = c := fun e he => emits.tagged e (by simp [split, he])
  rw [linesPair_foldl_linesAfter tagged, ← isRecovery_iff]
  refine ⟨line, ?_, inside⟩
  cases hr : isRecovery i with
  | true => exact .inr rfl
  | false => exact .inl (outside hr)

/-! Address bytes (20_memory.md R61, 30_encoding.md R82, 42_temperature.md R161). -/

/-- An address byte as a number (20_memory.md R61). -/
theorem addressByte_toNat (a7 : Addr7) (d : Bool) : (addressByte a7 d).toNat = 2 * a7.toNat + d.toNat := by
  revert a7 d; decide

/-- Settles O9: shifting by one place doubles, and the index is added modulo 128. -/
theorem addressBytesCarryAddressAndDirection : Obligations.AddressBytesCarryAddressAndDirection := by
  refine ⟨addressByte_toNat, fun a7 => ⟨writeAddress_eq a7, readAddress_eq a7⟩, fun base i => ?_⟩
  have sum : (base + BitVec.ofNat 7 i).toNat = (base.toNat + i) % 128 := by simp [BitVec.toNat_add]
  rw [tempAddress, readAddress, addressByte_toNat, sum]
  rfl

end Sys2Proof.Machine

/-! Every environment is realised (20_memory.md R70, log 1). The answers a command needs are found from its end: what follows
a sample has its answers by assumption, and the sample's own is put before them. -/

namespace Sys2Proof.Machine

/-- An event after the events `pre`, which follow the history h, is answered by env where it is a sample. -/
def AnsweredBy (env : List Event → Channel → Line → Bool) (h pre : List Event) : Event → List Event → Prop
  | .drv _ _ _, _ => True
  | .smp c l b, _ => b = env (pre.reverse ++ h) c l
  | .wait _ _, _ => True

/-- From s to t every sample is answered by env, and no answer is left over. -/
def Realised (env : List Event → Channel → Line → Bool) (s t : State) : Prop :=
  t.answers = [] ∧ ∃ es, t.history = es.reverse ++ s.history ∧ EveryEvent (AnsweredBy env s.history) es

/-- The rest k of a command: from every state it has answers that realise env. -/
def Realisable (env : List Event → Channel → Line → Bool) (k : State → State) : Prop :=
  ∀ s, ∃ as, Realised env s (k { s with answers := as })

/-- A part f of a command: with any rest that can be realised after each of its results, the whole can be realised. -/
def Realises {α : Type} (env : List Event → Channel → Line → Bool) (f : State → α × State) : Prop :=
  ∀ k : α → State → State, (∀ a, Realisable env (k a)) → Realisable env fun s => k (f s).1 (f s).2

section Realising

variable {env : List Event → Channel → Line → Bool} {k : State → State} {α β : Type}

/-! The primitives. -/

/-- Events that env answers may come first. -/
theorem Realised.after {s u t : State} (h : Realised env u t) (es : List Event)
    (grown : u.history = es.reverse ++ s.history) (own : EveryEvent (AnsweredBy env s.history) es) :
    Realised env s t := by
  obtain ⟨used, es', history, answered⟩ := h
  refine ⟨used, es ++ es', by simp [history, grown], (everyEvent_append ..).mpr ⟨?_, ?_⟩⟩
  · intro pre e post split
    cases e <;> exact own pre _ post split
  · intro pre e post split
    have here := answered pre e post split
    cases e with
    | drv c l v => trivial
    | smp c l b => simpa [AnsweredBy, grown] using here
    | wait c n => trivial

/-- The commit that ends a command takes no sample. -/
theorem Realisable.finish (w : Word) (e : ErrCode) : Realisable env (finish w e) :=
  fun _ => ⟨[], rfl, [], rfl, everyEvent_nil _⟩

theorem Realisable.drv (h : Realisable env k) (c : Channel) (l : Line) (v : Drive) :
    Realisable env fun s => k (drv c l v s) := fun s => by
  obtain ⟨as, realised⟩ := h (Machine.drv c l v s)
  exact ⟨as, realised.after (settled c l v) rfl (by simp [settled, AnsweredBy])⟩

theorem Realisable.wait (h : Realisable env k) (c : Channel) (n : Nat) :
    Realisable env fun s => k (wait c n s) := fun s => by
  obtain ⟨as, realised⟩ := h (Machine.wait c n s)
  exact ⟨as, realised.after [.wait c n] rfl (by simp [AnsweredBy])⟩

theorem checkContract_withAnswers (holds : Bool) (s : State) (as : List Bool) :
    checkContract holds { s with answers := as } = { checkContract holds s with answers := as } := by
  cases holds <;> rfl

theorem Realisable.check (h : Realisable env k) (c : Channel) (ready : LinePair → Bool) :
    Realisable env fun s => k (checkContract (ready (s.pair c)) s) := fun s => by
  obtain ⟨as, realised⟩ := h (checkContract (ready (s.pair c)) s)
  obtain ⟨-, -, -, history, -, -⟩ := checkContract_fields (ready (s.pair c)) s
  rw [← checkContract_withAnswers] at realised
  exact ⟨as, realised.after [] history (everyEvent_nil _)⟩

/-- A sample takes the answer of env at its place, put before the answers that the rest takes. -/
theorem smp_realises (c : Channel) (l : Line) : Realises env (smp c l) := fun k h s => by
  obtain ⟨as, realised⟩ := h (env s.history c l) (emit (.smp c l (env s.history c l)) s)
  exact ⟨env s.history c l :: as, realised.after [.smp c l (env s.history c l)] rfl (by simp [AnsweredBy])⟩

/-! How parts compose. -/

theorem Realises.result (a : α) : Realises env fun s => (a, s) := fun _ h => h a

theorem Realises.bind {f : State → α × State} {g : α → State → β × State} (hf : Realises env f)
    (hg : ∀ a, Realises env (g a)) : Realises env fun s => g (f s).1 (f s).2 := fun k h =>
  hf (fun a s => k (g a s).1 (g a s).2) fun a => hg a k h

theorem Realises.drv {f : State → α × State} (hf : Realises env f) (c : Channel) (l : Line) (v : Drive) :
    Realises env fun s => f (drv c l v s) := fun k h => (hf k h).drv c l v

theorem Realises.wait {f : State → α × State} (hf : Realises env f) (c : Channel) (n : Nat) :
    Realises env fun s => f (wait c n s) := fun k h => (hf k h).wait c n

theorem Realises.check {f : State → α × State} (hf : Realises env f) (c : Channel) (ready : LinePair → Bool) :
    Realises env fun s => f (checkContract (ready (s.pair c)) s) := fun k h => (hf k h).check c ready

/-- A part whose result decides between two others. -/
theorem Realises.ite {f : State → α × State} {yes no : State → β × State} (hf : Realises env f) (p : α → Prop)
    [DecidablePred p] (hyes : Realises env yes) (hno : Realises env no) :
    Realises env fun s => if p (f s).1 then yes (f s).2 else no (f s).2 :=
  hf.bind (g := fun a s => if p a then yes s else no s) fun a => by
    by_cases h : p a
    · simpa only [h, if_true] using hyes
    · simpa only [h, if_false] using hno

/-- A transfer whose acknowledgement decides between two parts. -/
theorem Realises.onAck {f : State → Ack × State} {acked nacked : State → α × State} (hf : Realises env f)
    (ha : Realises env acked) (hn : Realises env nacked) :
    Realises env fun s => match (f s).1 with | .nack => nacked (f s).2 | .ack => acked (f s).2 :=
  hf.bind (g := fun a s => match a with | .nack => nacked s | .ack => acked s) fun
    | .ack => ha
    | .nack => hn

/-! The bodies of the five primitives. -/

theorem Realises.writeBits {f : State → α × State} (hf : Realises env f) (c : Channel) (b : Byte) : ∀ n : Nat,
    Realises env fun s => f (writeBits c b n s)
  | 0 => hf
  | n + 1 => (((hf.writeBits c b n).drv c .scl .l).drv c .scl .h).drv c .sda (bitDrive (b.getLsbD n))

theorem sampleAck_realises (c : Channel) : Realises env (sampleAck c) :=
  (((smp_realises c .sda).bind fun a =>
    ((Realises.result (ackOfBit a)).drv c .sda .l).drv c .scl .l).drv c .scl .h).drv c .sda .z

theorem wrbBody_realises (c : Channel) (b : Byte) : Realises env (wrbBody c b) :=
  ((sampleAck_realises c).writeBits c b 8).drv c .scl .l

theorem startBody_realises (c : Channel) (ab : Byte) : Realises env (startBody c ab) :=
  ((((wrbBody_realises c ab).drv c .scl .l).drv c .sda .l).drv c .scl .h).check c startReady

theorem rstartBody_realises (c : Channel) (ab : Byte) : Realises env (rstartBody c ab) :=
  ((startBody_realises c ab).drv c .sda .z).check c rstartReady

theorem Realisable.stopBody (h : Realisable env k) (c : Channel) : Realisable env fun s => k (stopBody c s) :=
  ((h.drv c .sda .z).drv c .scl .h).check c stopReady

theorem Realises.stopBody {f : State → α × State} (hf : Realises env f) (c : Channel) :
    Realises env fun s => f (stopBody c s) := fun k h => (hf k h).stopBody c

theorem readBits_realises (c : Channel) : ∀ (n : Nat) (r : Byte), Realises env (readBits c n r)
  | 0, r => .result r
  | n + 1, r =>
    ((smp_realises c .sda).bind fun b => (readBits_realises c n (withBit r n b)).drv c .scl .l).drv c .scl .h

theorem Realises.sendAck {f : State → α × State} (hf : Realises env f) (c : Channel) (a : Ack) :
    Realises env fun s => f (sendAck c a s) := by
  have cycle {g : State → α × State} (hg : Realises env g) :=
    (((hg.drv c .sda .l).drv c .scl .l).drv c .scl .h).drv c .sda (ackDrive a)
  cases a with
  | ack => exact cycle hf
  | nack => exact cycle (hf.stopBody c)

theorem rdbBody_realises (c : Channel) (a : Ack) : Realises env (rdbBody c a) :=
  (((readBits_realises c 8 0x00#8).bind fun r => (Realises.result r).sendAck c a).drv c .sda .z).drv c .scl .l

/-! Bus recovery. -/

theorem awaitClock_realises (c : Channel) : ∀ n : Nat, Realises env (awaitClock c n)
  | 0 => .result false
  | n + 1 =>
    (smp_realises c .scl).ite (· = true) (.result true) ((awaitClock_realises c n).wait c Config.stretchWait)

theorem pulseWhileLow_realises (c : Channel) : ∀ n : Nat, Realises env (pulseWhileLow c n)
  | 0 => .result true
  | n + 1 =>
    have served := (awaitClock_realises c Config.stretchTries).ite (· = true) (pulseWhileLow_realises c n) (.result false)
    (smp_realises c .sda).ite (· = true) (.result true) ((served.drv c .scl .z).drv c .scl .l)

theorem clearOrStuck_realises (c : Channel) : Realises env (clearOrStuck c) :=
  (smp_realises c .sda).ite (· = true) (((Realises.result Recovery.cleared).drv c .sda .z).drv c .sda .l)
    (.result Recovery.sdaStuck)

theorem recover_realises (c : Channel) : Realises env (recover c) :=
  have pulses := (pulseWhileLow_realises c Config.recoveryPulses).ite (· = true) (clearOrStuck_realises c)
    (.result .sdaClockStretchTimeout)
  (((smp_realises c .scl).ite (· = true) pulses (.result .sclStuck)).drv c .sda .z).drv c .scl .z

/-! The device protocols. -/

theorem untilNack_realises : ∀ fs : List (State → Ack × State), (∀ f ∈ fs, Realises env f) →
    Realises env (untilNack fs)
  | [], _ => .result Ack.ack
  | f :: fs, h =>
    (h f (by simp)).bind (g := fun a s => match a with | .ack => untilNack fs s | .nack => (.nack, s)) fun
      | .ack => untilNack_realises fs fun g hg => h g (by simp [hg])
      | .nack => .result Ack.nack

/-- The transfers that open a bridge command (43_onewire_bridge.md R181, R182, R184). -/
theorem bridgeOpen_realises (c : Channel) (a r : Byte) (bytes : List Byte) :
    Realises env (untilNack (startBody c a :: (bytes.map (wrbBody c) ++ [rstartBody c r]))) := by
  refine untilNack_realises _ fun f hf => ?_
  simp only [List.mem_cons, List.mem_append, List.mem_map, List.not_mem_nil, or_false] at hf
  rcases hf with rfl | ⟨b, -, rfl⟩ | rfl
  · exact startBody_realises c a
  · exact wrbBody_realises c b
  · exact rstartBody_realises c r

theorem owrstBody_realises (p : Config.Params) (c : Channel) (a7 : Addr7) : Realises env (owrstBody p c a7) :=
  (bridgeOpen_realises c (writeAddress a7) (readAddress a7) [p.cmdDrst]).onAck
    ((rdbBody_realises c .nack).bind fun st =>
      .result (if st &&& p.rstMask = p.rstPattern then ErrCode.ok else .resetStatus))
    ((Realises.result ErrCode.noAck).stopBody c)

theorem Realises.correctiveReset (p : Config.Params) (c : Channel) (a7 : Addr7) (e : ErrCode) :
    Realises env fun s => (e, correctiveReset p c a7 s) :=
  (owrstBody_realises p c a7).bind fun _ => .result e

theorem owcfgBody_realises (p : Config.Params) (c : Channel) (a7 : Addr7) : Realises env (owcfgBody p c a7) :=
  (bridgeOpen_realises c (writeAddress a7) (readAddress a7) [p.cmdWcfg, p.configByte]).onAck
    ((rdbBody_realises c .nack).ite (· = p.configByte) (.result .ok) (.correctiveReset p c a7 .verifyFail))
    ((Realises.correctiveReset p c a7 .noAck).stopBody c)

theorem detect_realises (p : Config.Params) (c : Channel) (a7 : Addr7) : Realises env (detect p c a7) :=
  (owrstBody_realises p c a7).bind (g := fun e s => match e with | .ok => owcfgBody p c a7 s | _ => (e, s)) fun
    | .ok => owcfgBody_realises p c a7
    | .noAck => .result ErrCode.noAck
    | .busLockup => .result ErrCode.busLockup
    | .verifyFail => .result ErrCode.verifyFail
    | .pollLimit => .result ErrCode.pollLimit
    | .resetStatus => .result ErrCode.resetStatus
    | .illegal => .result ErrCode.illegal

theorem pollBusy_realises (c : Channel) : ∀ (n : Nat) (st : Byte), Realises env (pollBusy c n st)
  | 0, st => .result st
  | n + 1, st =>
    (Realises.result st).ite (statusBusy · = true)
      ((rdbBody_realises c .ack).bind fun st' => pollBusy_realises c n st') (.result st)

/-- The commit of OWTRP after its final byte (43_onewire_bridge.md R184). -/
theorem pollTriplet_realisable (p : Config.Params) (c : Channel) (a7 : Addr7) : Realisable env (pollTriplet p c a7) := by
  have polled : Realises env fun s =>
      pollBusy c (Config.pollLimit - 1) (rdbBody c .ack s).1 (rdbBody c .ack s).2 :=
    (rdbBody_realises c .ack).bind fun st => pollBusy_realises c (Config.pollLimit - 1) st
  have last (st : Byte) : Realisable env fun s =>
      if statusBusy st then finish 0x0000#16 .pollLimit (correctiveReset p c a7 (rdbBody c .nack s).2)
      else finish (byteWord (rdbBody c .nack s).1) .ok (rdbBody c .nack s).2 := by
    cases statusBusy st with
    | true => exact rdbBody_realises c .nack _ fun _ => owrstBody_realises p c a7 _ fun _ => .finish 0x0000#16 .pollLimit
    | false => exact rdbBody_realises c .nack (fun f => finish (byteWord f) .ok) fun f => .finish (byteWord f) .ok
  exact polled _ last

theorem triplet_realisable (p : Config.Params) (c : Channel) (dir : Bool) (a7 : Addr7) :
    Realisable env (triplet p c dir a7) :=
  bridgeOpen_realises c (writeAddress a7) (readAddress a7) [p.cmd1wt, dirByte dir]
    (fun a s => match a with | .nack => finish 0x0000#16 .noAck (stopBody c s) | .ack => pollTriplet p c a7 s) fun
    | .nack => (Realisable.finish 0x0000#16 .noAck).stopBody c
    | .ack => pollTriplet_realisable p c a7

theorem readTemp_realisable (c : Channel) : Realisable env (readTemp c) :=
  rdbBody_realises c .ack
    (fun hi s => finish (tempDecode (tempWord hi (rdbBody c .nack s).1)) .ok (rdbBody c .nack s).2) fun hi =>
      rdbBody_realises c .nack (fun lo => finish (tempDecode (tempWord hi lo)) .ok) fun _ => .finish _ .ok

theorem sweepTemp_realisable (p : Config.Params) (c : Channel) : ∀ is : List Nat, Realisable env (sweepTemp p c is)
  | [] => .finish 0x0000#16 .noAck
  | i :: is =>
    startBody_realises c (tempAddress p.tempBase7 i)
      (fun a s => match a with | .ack => readTemp c s | .nack => sweepTemp p c is (stopBody c s)) fun
      | .ack => readTemp_realisable c
      | .nack => (sweepTemp_realisable p c is).stopBody c

/-! The commands. -/

theorem onChannel_realised {body : Channel → State → State} (h : ∀ ch, Realisable env (body ch)) (c : BitVec 2)
    (s : State) : ∃ as t, onChannel c { s with answers := as } (fun ch => body ch { s with answers := as }) = .next t ∧
      Realised env s t := by
  cases hc : channelOf c with
  | some ch =>
    obtain ⟨as, realised⟩ := h ch s
    exact ⟨as, _, onChannel_some hc _ _, realised⟩
  | none => exact ⟨[], _, onChannel_none hc _ _, rfl, [], rfl, everyEvent_nil _⟩

theorem Realises.commit {f : State → α × State} (hf : Realises env f) (res : α → Word) (err : α → ErrCode) :
    Realisable env fun s => Machine.finish (res (f s).1) (err (f s).1) (f s).2 :=
  hf (fun a => Machine.finish (res a) (err a)) fun a => .finish (res a) (err a)

theorem Realises.commitBool {f : State → ErrCode × State} (hf : Realises env f) :
    Realisable env fun s => finishBool (f s) :=
  hf.commit (fun e => boolWord (e = .ok)) id

theorem exec_realised (i : Instr) (s : State) :
    ∃ as t, exec i { s with answers := as } = .next t ∧ Realised env s t := by
  cases i with
  | start c ab => exact onChannel_realised (fun ch => (startBody_realises ch ab).commit ackWord fun _ => .ok) c s
  | rstart c ab => exact onChannel_realised (fun ch => (rstartBody_realises ch ab).commit ackWord fun _ => .ok) c s
  | stop c => exact onChannel_realised (fun ch => (Realisable.finish 0x0000#16 .ok).stopBody ch) c s
  | wrb c b => exact onChannel_realised (fun ch => (wrbBody_realises ch b).commit ackWord fun _ => .ok) c s
  | rdb c k => exact onChannel_realised (fun ch => (rdbBody_realises ch k).commit byteWord fun _ => .ok) c s
  | busrst c => exact onChannel_realised (fun ch => (recover_realises ch).commit recoveryCode recoveryErr) c s
  | temp c =>
    exact onChannel_realised (fun ch => sweepTemp_realisable Config.params ch (List.range Config.tempAddrCount)) c s
  | owrst c a7 => exact onChannel_realised (fun ch => (owrstBody_realises Config.params ch a7).commitBool) c s
  | owcfg c a7 => exact onChannel_realised (fun ch => (owcfgBody_realises Config.params ch a7).commitBool) c s
  | owdet c a7 => exact onChannel_realised (fun ch => (detect_realises Config.params ch a7).commitBool) c s
  | owtrp c dir a7 => exact onChannel_realised (fun ch => triplet_realisable Config.params ch dir a7) c s

end Realising

/-- Settles O23: the answers are built from the command's end, each that of env at its sample. -/
theorem everyEnvironmentIsRealised : Obligations.EveryEnvironmentIsRealised := by
  intro env i s
  obtain ⟨as, t, run, used, es, history, answered⟩ := exec_realised (env := env) i s
  exact ⟨as, t, es, run, by simp [State.trace, history], used,
    fun pre c l b post split => answered pre (.smp c l b) post split⟩

end Sys2Proof.Machine

/-! Family 30_encoding.md. What a CMD word is made of, which words the decoder accepts, what the assembler emits, and what
RES and ERR hold after each command. -/

namespace Sys2Proof

open Machine

/-! A word and its fields (30_encoding.md R80). -/

/-- Two words with the same five fields are the same word. -/
theorem word_ext {w v : Word} (op : fieldOp w = fieldOp v) (ch : fieldCh w = fieldCh v) (f : fieldF w = fieldF v)
    (rsv : fieldRsv w = fieldRsv v) (d : fieldD w = fieldD v) : w = v := by
  have bitOp (j : Nat) : (fieldOp w).getLsbD j = (fieldOp v).getLsbD j := by rw [op]
  have bitCh (j : Nat) : (fieldCh w).getLsbD j = (fieldCh v).getLsbD j := by rw [ch]
  have bitD (j : Nat) : (fieldD w).getLsbD j = (fieldD v).getLsbD j := by rw [d]
  simp only [fieldOp, fieldCh, fieldD, BitVec.getLsbD_extractLsb'] at bitOp bitCh bitD
  apply BitVec.eq_of_getLsbD_eq
  intro i hi
  rcases Nat.lt_or_ge i 8 with low | high
  · simpa [low] using bitD i
  rcases Nat.lt_or_ge i 12 with mid | top
  · interval_cases i
    · exact rsv
    · exact f
    · simpa using bitCh 0
    · simpa using bitCh 1
  · have := bitOp (i - 12)
    rw [Nat.add_sub_cancel' top] at this
    simpa [show i - 12 < 4 by omega] using this

theorem word_eq_iff {w v : Word} : w = v ↔ fieldOp w = fieldOp v ∧ fieldCh w = fieldCh v ∧ fieldF w = fieldF v ∧
    fieldRsv w = fieldRsv v ∧ fieldD w = fieldD v :=
  ⟨fun h => by simp [h], fun ⟨op, ch, f, rsv, d⟩ => word_ext op ch f rsv d⟩

/-- A word with RSV = 0 is made of its fields. -/
theorem encodeFields_fields {w : Word} (rsv : fieldRsv w = false) :
    encodeFields (fieldOp w) (fieldCh w) (fieldF w) (fieldD w) = w :=
  word_ext (by simp) (by simp) (by simp) (by simp [rsv]) (by simp)

/-- The data byte of a bridge command is its address. -/
theorem encodeA7_fieldA7 {w : Word} (top : fieldD7 w = false) : encodeA7 (fieldA7 w) = fieldD w := by
  apply BitVec.eq_of_getLsbD_eq
  intro i hi
  simp only [encodeA7, fieldA7, fieldD, BitVec.getLsbD_setWidth, BitVec.getLsbD_extractLsb', hi]
  rcases Nat.lt_or_ge i 7 with low | high
  · simp [low]
  · obtain rfl : i = 7 := by omega
    simpa [fieldD7] using top.symm

@[simp] theorem Machine.ackBit_ackOfBit (b : Bool) : ackBit (ackOfBit b) = b := by
  cases b <;> rfl

/-! The decoder's checks (30_encoding.md R83, R84). -/

theorem needFlagZero_ok_iff {w : Word} {r : Except DecodeError Instr} {i : Instr} :
    needFlagZero w r = .ok i ↔ fieldF w = false ∧ r = .ok i := by
  cases h : fieldF w <;> simp [needFlagZero, h]

theorem needDataZero_ok_iff {w : Word} {r : Except DecodeError Instr} {i : Instr} :
    needDataZero w r = .ok i ↔ fieldD w = 0#8 ∧ r = .ok i := by
  by_cases h : fieldD w = 0#8 <;> simp [needDataZero, h]

theorem needAddress_ok_iff {w : Word} {r : Except DecodeError Instr} {i : Instr} :
    needAddress w r = .ok i ↔ fieldD7 w = false ∧ r = .ok i := by
  cases h : fieldD7 w <;> simp [needAddress, h]

theorem decode_ok_iff_decodeOp {w : Word} {i : Instr} :
    decode w = .ok i ↔ fieldCh w ≠ 3#2 ∧ fieldRsv w = false ∧ decodeOp w = .ok i := by
  by_cases ch : fieldCh w = 3#2 <;> cases rsv : fieldRsv w <;> simp [decode, ch, rsv]

/-- What the opcode map accepts carries the word's channel, and its encoding has the word's fields. -/
theorem encode_of_decodeOp {w : Word} {i : Instr} (h : decodeOp w = .ok i) :
    i.chField = fieldCh w ∧ encode i = encodeFields (fieldOp w) (fieldCh w) (fieldF w) (fieldD w) := by
  have op {n : Nat} (hn : (fieldOp w).toNat = n) : fieldOp w = BitVec.ofNat 4 n := by simp [← hn]
  unfold decodeOp at h
  split at h <;> rename_i hn <;>
    simp only [needFlagZero_ok_iff, needDataZero_ok_iff, needAddress_ok_iff, Except.ok.injEq, reduceCtorEq] at h
  case h_1 | h_2 | h_4 => obtain ⟨f, rfl⟩ := h; exact ⟨rfl, by simp [encode, op hn, f]⟩
  case h_3 | h_6 | h_7 => obtain ⟨f, d, rfl⟩ := h; exact ⟨rfl, by simp [encode, op hn, f, d]⟩
  case h_5 => obtain ⟨d, rfl⟩ := h; exact ⟨rfl, by simp [encode, op hn, d]⟩
  case h_8 | h_9 | h_10 => obtain ⟨f, top, rfl⟩ := h; exact ⟨rfl, by simp [encode, op hn, f, encodeA7_fieldA7 top]⟩
  case h_11 => obtain ⟨top, rfl⟩ := h; exact ⟨rfl, by simp [encode, op hn, encodeA7_fieldA7 top]⟩

/-- The decoder and the encoder are inverse on the legal words and the well-formed commands. -/
theorem decode_ok_iff {w : Word} {i : Instr} : decode w = .ok i ↔ encode i = w ∧ i.WellFormed := by
  constructor
  · intro h
    obtain ⟨ch, rsv, hop⟩ := decode_ok_iff_decodeOp.mp h
    obtain ⟨channel, word⟩ := encode_of_decodeOp hop
    exact ⟨word.trans (encodeFields_fields rsv), channel.trans_ne ch⟩
  · rintro ⟨rfl, wf⟩
    exact decode_encode wf

/-- Settles O1: the fields of the encoded word are those the decoder reads back. -/
theorem decodeEncodeRoundTrip : Obligations.DecodeEncodeRoundTrip :=
  fun _ wf => decode_encode wf

/-- Settles O2: each check of the decoder fixes the bits that the encoder writes. -/
theorem acceptedWordIsItsEncoding : Obligations.AcceptedWordIsItsEncoding :=
  fun _ _ h => decode_ok_iff.mp h

/-! The match and mask table, row by row in terms of the fields (30_encoding.md R83). -/

theorem fields_and (w v : Word) :
    fieldOp (w &&& v) = fieldOp w &&& fieldOp v ∧ fieldCh (w &&& v) = fieldCh w &&& fieldCh v ∧
      fieldF (w &&& v) = (fieldF w && fieldF v) ∧ fieldRsv (w &&& v) = (fieldRsv w && fieldRsv v) ∧
      fieldD (w &&& v) = fieldD w &&& fieldD v :=
  ⟨BitVec.extractLsb'_and, BitVec.extractLsb'_and, BitVec.getLsbD_and, BitVec.getLsbD_and, BitVec.extractLsb'_and⟩

theorem fields_or (w v : Word) :
    fieldOp (w ||| v) = fieldOp w ||| fieldOp v ∧ fieldCh (w ||| v) = fieldCh w ||| fieldCh v ∧
      fieldF (w ||| v) = (fieldF w || fieldF v) ∧ fieldRsv (w ||| v) = (fieldRsv w || fieldRsv v) ∧
      fieldD (w ||| v) = fieldD w ||| fieldD v :=
  ⟨BitVec.extractLsb'_or, BitVec.extractLsb'_or, BitVec.getLsbD_or, BitVec.getLsbD_or, BitVec.extractLsb'_or⟩

/-- RSV, bit 8, as a mask: it lies in no other field. -/
def rsvMask : Word := 0x0100#16

theorem fields_rsvMask : fieldOp rsvMask = 0#4 ∧ fieldCh rsvMask = 0#2 ∧ fieldF rsvMask = false ∧
    fieldRsv rsvMask = true ∧ fieldD rsvMask = 0x00#8 := by decide

/-- A row that fixes OP, RSV to 0, F to 0 where `flag` says so, and the bits of D in `data` to 0. -/
def rowOf (mnemonic : String) (op : BitVec 4) (flag : Bool) (data : Byte) : OpcodeRow where
  mnemonic := mnemonic
  mask := encodeFields 0xF#4 0#2 flag data ||| rsvMask
  value := encodeFields op 0#2 false 0x00#8

@[simp] theorem rowOf_mnemonic (m : String) (op : BitVec 4) (flag : Bool) (data : Byte) :
    (rowOf m op flag data).mnemonic = m := rfl

theorem opcodeRows_eq : opcodeRows =
    [rowOf "START" 0x0#4 true 0x00#8, rowOf "RSTART" 0x1#4 true 0x00#8, rowOf "STOP" 0x2#4 true 0xFF#8,
     rowOf "WRB" 0x3#4 true 0x00#8, rowOf "RDB" 0x4#4 false 0xFF#8, rowOf "BUSRST" 0x5#4 true 0xFF#8,
     rowOf "TEMP" 0x6#4 true 0xFF#8, rowOf "OWRST" 0x7#4 true 0x80#8, rowOf "OWCFG" 0x8#4 true 0x80#8,
     rowOf "OWDET" 0x9#4 true 0x80#8, rowOf "OWTRP" 0xA#4 false 0x80#8] := by decide

theorem rowMatches_rowOf (w : Word) (m : String) (op : BitVec 4) (flag : Bool) (data : Byte) :
    rowMatches w (rowOf m op flag data) = true ↔
      fieldCh w ≠ 3#2 ∧ fieldRsv w = false ∧ fieldOp w = op ∧ (flag = true → fieldF w = false) ∧
        fieldD w &&& data = 0x00#8 := by
  have all : fieldOp w &&& 0xF#4 = fieldOp w := BitVec.and_allOnes
  simp only [rowMatches, decide_eq_true_eq, word_eq_iff]
  cases flag <;> simp [rowOf, fields_and, fields_or, fields_rsvMask, all] <;> tauto

/-- A row that fixes D[7] to 0 makes the check of a bridge command. -/
theorem and_top_eq_zero (d : Byte) : d &&& 0x80#8 = 0x00#8 ↔ d[7] = false := by
  revert d; decide

@[simp] theorem fieldD_seven (w : Word) : (fieldD w)[7] = fieldD7 w := by
  simp [fieldD, fieldD7]

/-- A row that fixes all of D makes the check of a command without data. -/
theorem and_all (d : Byte) : d &&& 0xFF#8 = d := BitVec.and_allOnes

/-- A word that matches a row decodes to a command of that row: the row fixes what the decoder checks. -/
theorem decode_of_rowMatches {w : Word} {r : OpcodeRow} (hr : r ∈ opcodeRows) (h : rowMatches w r = true) :
    ∃ i, decode w = .ok i ∧ instrMnemonic i = r.mnemonic := by
  simp only [opcodeRows_eq, List.mem_cons, List.not_mem_nil, or_false] at hr
  rcases hr with rfl | rfl | rfl | rfl | rfl | rfl | rfl | rfl | rfl | rfl | rfl
  all_goals
    obtain ⟨ch, rsv, op, f, d⟩ := (rowMatches_rowOf ..).mp h
    simp only [and_top_eq_zero, and_all, fieldD_seven, reduceCtorEq, forall_const] at f d
    simp [decode, decodeOp, needFlagZero, needDataZero, needAddress, ch, rsv, op, f, d, instrMnemonic]

/-- The word of a well-formed command matches the row of its mnemonic: the encoder writes what the row fixes. -/
theorem rowMatches_encode {i : Instr} (wf : i.WellFormed) :
    ∀ r ∈ opcodeRows, r.mnemonic = instrMnemonic i → rowMatches (encode i) r = true := by
  rw [opcodeRows_eq]
  cases i <;> simpa [rowMatches_rowOf, and_top_eq_zero, instrMnemonic, encode, Instr.chField] using wf

theorem rowMatches_iff_decode {w : Word} {r : OpcodeRow} (hr : r ∈ opcodeRows) :
    rowMatches w r = true ↔ ∃ i, decode w = .ok i ∧ instrMnemonic i = r.mnemonic := by
  constructor
  · exact decode_of_rowMatches hr
  · rintro ⟨i, h, m⟩
    obtain ⟨rfl, wf⟩ := decode_ok_iff.mp h
    exact rowMatches_encode wf r hr m.symm

/-- The table has one row per mnemonic. -/
theorem mnemonic_row (i : Instr) :
    (opcodeRows.filter fun r => r.mnemonic = instrMnemonic i).map (·.mnemonic) = [instrMnemonic i] := by
  cases i <;> simp [opcodeRows, instrMnemonic]

/-- Settles O4: the rows that match a word are those named by what it decodes to. -/
theorem decoderAgreesWithMatchMaskTable : Obligations.DecoderAgreesWithMatchMaskTable := by
  refine fun w => ⟨fun i h => ?_, fun e h => ?_⟩
  · rw [← mnemonic_row i]
    congr 1
    refine List.filter_congr fun r hr => ?_
    rw [Bool.eq_iff_iff, rowMatches_iff_decode hr]
    simp [h, eq_comm]
  · refine List.filter_eq_nil_iff.mpr fun r hr => ?_
    rw [rowMatches_iff_decode hr]
    simp [h]

/-! The illegal words by arithmetic (30_encoding.md R84). -/

theorem fieldOp_toNat (w : Word) : (fieldOp w).toNat = w.toNat / 4096 := by
  have := w.isLt
  simp [fieldOp, Nat.shiftRight_eq_div_pow]
  omega

theorem fieldCh_toNat (w : Word) : (fieldCh w).toNat = w.toNat / 1024 % 4 := by
  simp [fieldCh, Nat.shiftRight_eq_div_pow]

theorem fieldD_toNat (w : Word) : (fieldD w).toNat = w.toNat % 256 := by
  simp [fieldD]

theorem fieldF_iff (w : Word) : fieldF w = true ↔ w.toNat / 512 % 2 = 1 := by
  simp [fieldF, BitVec.getLsbD, Nat.testBit_eq_decide_div_mod_eq]

theorem fieldRsv_iff (w : Word) : fieldRsv w = true ↔ w.toNat / 256 % 2 = 1 := by
  simp [fieldRsv, BitVec.getLsbD, Nat.testBit_eq_decide_div_mod_eq]

theorem fieldD7_iff (w : Word) : fieldD7 w = true ↔ 128 ≤ w.toNat % 256 := by
  simp only [fieldD7, BitVec.getLsbD, Nat.testBit_eq_decide_div_mod_eq, decide_eq_true_eq]
  omega

theorem fieldCh_eq_three_iff (w : Word) : fieldCh w = 3#2 ↔ w.toNat / 1024 % 4 = 3 := by
  simp [← BitVec.toNat_inj, fieldCh_toNat]

theorem fieldD_eq_zero_iff (w : Word) : fieldD w = 0#8 ↔ w.toNat % 256 = 0 := by
  simp [← BitVec.toNat_inj, fieldD_toNat]

/-- A result of the decoder that is no command. -/
def IsError (r : Except DecodeError Instr) : Prop := ∃ e, r = .error e

@[simp] theorem isError_ok (i : Instr) : ¬ IsError (.ok i) := by simp [IsError]

@[simp] theorem isError_error (e : DecodeError) : IsError (.error e) := ⟨e, rfl⟩

theorem isError_needFlagZero (w : Word) (r : Except DecodeError Instr) :
    IsError (needFlagZero w r) ↔ fieldF w = true ∨ IsError r := by
  cases h : fieldF w <;> simp [needFlagZero, h]

theorem isError_needDataZero (w : Word) (r : Except DecodeError Instr) :
    IsError (needDataZero w r) ↔ fieldD w ≠ 0#8 ∨ IsError r := by
  by_cases h : fieldD w = 0#8 <;> simp [needDataZero, h]

theorem isError_needAddress (w : Word) (r : Except DecodeError Instr) :
    IsError (needAddress w r) ↔ fieldD7 w = true ∨ IsError r := by
  cases h : fieldD7 w <;> simp [needAddress, h]

/-- R84's items 1 and 3 on the opcode map: no row, or a row whose check fails. -/
theorem isError_decodeOp (w : Word) :
    IsError (decodeOp w) ↔ 11 ≤ w.toNat / 4096 ∨
      (w.toNat / 512 % 2 = 1 ∧ w.toNat / 4096 ≠ 4 ∧ w.toNat / 4096 ≠ 10) ∨
      (w.toNat % 256 ≠ 0 ∧ (w.toNat / 4096 = 2 ∨ w.toNat / 4096 = 4 ∨ w.toNat / 4096 = 5 ∨ w.toNat / 4096 = 6)) ∨
      (128 ≤ w.toNat % 256 ∧ 7 ≤ w.toNat / 4096 ∧ w.toNat / 4096 ≤ 10) := by
  unfold decodeOp
  rw [fieldOp_toNat]
  split <;>
    simp only [isError_needFlagZero, isError_needDataZero, isError_needAddress, isError_ok, isError_error, fieldF_iff,
      fieldD7_iff, ne_eq, fieldD_eq_zero_iff, or_false, true_iff]
  case h_12 => simp only [imp_false] at *; omega
  all_goals omega

theorem isError_decode (w : Word) : IsError (decode w) ↔ illegalWord w.toNat := by
  by_cases ch : w.toNat / 1024 % 4 = 3
  · simp [decode, illegalWord, fieldCh_eq_three_iff, ch]
  by_cases rsv : w.toNat / 256 % 2 = 1
  · simp [decode, illegalWord, fieldCh_eq_three_iff, fieldRsv_iff, ch, rsv]
  · simp [decode, illegalWord, fieldCh_eq_three_iff, fieldRsv_iff, ch, rsv, isError_decodeOp]

end Sys2Proof

namespace Sys2Proof.Machine

theorem runWord_of_error {w : Word} {e : DecodeError} (h : decode w = .error e) (s : State) :
    runWord w s = .next (illegalCommand s) := by
  simp [runWord, h]

/-- Settles O3: R84's items are the failing checks of the decoder, and the write of a rejected word runs only the commit. -/
theorem illegalWordsDoNothingButReport : Obligations.IllegalWordsDoNothingButReport := by
  refine fun w => ⟨isError_decode w, fun illegal s rest hs => ⟨rstatWithErr s.rstat .illegal, ?_, ?_, ?_, ?_⟩⟩
  · obtain ⟨e, he⟩ := (isError_decode w).mpr illegal
    rw [step_writeCmd hs, runWord_of_error he]
    rfl
  · exact rstatErr_withErr ..
  · exact rstatCv_withErr ..
  · exact rstatReserved_withErr ..

/-- Settles O17: channel 3 names no channel, so the command has no body to run. -/
theorem channelThreeIsIllegal : Obligations.ChannelThreeIsIllegal :=
  fun _ s h => exec_illegal ((channelOf_none_iff _).mpr (not_not.mp h)) s

/-! The assembler (30_encoding.md R86, R87). -/

theorem inRange_eq_some {bound n : Nat} {k : Nat → Option Instr} {i : Instr} :
    inRange bound n k = some i ↔ n < bound ∧ k n = some i := by
  by_cases h : n < bound <;> simp [inRange, h]

/-- A channel operand in range is a CH field that names a channel. -/
theorem ofNat_ne_three {c : Nat} (h : c < 3) : BitVec.ofNat 2 c ≠ 3#2 := by
  interval_cases c <;> decide

/-- Every line the assembler accepts has its channel operand in range, whatever its other operands. -/
theorem assemble_wellFormed {op : AsmOp} {args : List Nat} {i : Instr} (h : assemble op args = some i) :
    i.WellFormed := by
  unfold assemble at h
  split at h
  all_goals
    simp only [asmChannel, asmByte, asmAddr, asmBit, inRange_eq_some, Option.some.injEq, reduceCtorEq] at h
  case h_3 | h_6 | h_7 | h_16 | h_17 =>
    obtain ⟨channel, rfl⟩ := h
    exact ofNat_ne_three channel
  case h_11 =>
    obtain ⟨-, channel, -, rfl⟩ := h
    exact ofNat_ne_three channel
  all_goals
    obtain ⟨channel, -, rfl⟩ := h
    exact ofNat_ne_three channel

/-- An accepted line is a mnemonic with operands that `assemble` accepts. -/
theorem assemble_of_assembleLine {line : List Char} {i : Instr} (h : assembleLine line = some i) :
    ∃ op args, assemble op args = some i := by
  simp only [assembleLine] at h
  split at h
  · cases h
  · split at h
    · exact ⟨_, _, h⟩
    · cases h

/-- Settles O6: the assembler checks the range of the channel, and a well-formed command decodes back. -/
theorem assemblerEmitsOnlyLegalWords : Obligations.AssemblerEmitsOnlyLegalWords := by
  intro line i h
  obtain ⟨op, args, hi⟩ := assemble_of_assembleLine h
  have wf := assemble_wellFormed hi
  exact ⟨wf, decode_encode wf⟩

/-! The line of a command. -/

theorem inRange_of_lt {bound n : Nat} (h : n < bound) (k : Nat → Option Instr) : inRange bound n k = k n := if_pos h

theorem toNat_lt_three {c : BitVec 2} (hc : c ≠ 3#2) : c.toNat < 3 := by
  revert c; decide

section Line

variable {c : BitVec 2} (hc : c ≠ 3#2)
include hc

theorem asmChannel_toNat (k : BitVec 2 → Instr) : asmChannel c.toNat k = some (k c) := by
  simp [asmChannel, inRange_of_lt (toNat_lt_three hc)]

theorem asmByte_toNat (b : Byte) (k : BitVec 2 → Byte → Instr) : asmByte c.toNat b.toNat k = some (k c b) := by
  simp [asmByte, inRange_of_lt (toNat_lt_three hc), inRange_of_lt b.isLt]

theorem asmAddr_toNat (a7 : Addr7) (k : BitVec 2 → Addr7 → Instr) : asmAddr c.toNat a7.toNat k = some (k c a7) := by
  simp [asmAddr, inRange_of_lt (toNat_lt_three hc), inRange_of_lt a7.isLt]

theorem asmBit_toNat (b : Bool) (k : BitVec 2 → Bool → Instr) : asmBit c.toNat b.toNat k = some (k c b) := by
  simp [asmBit, inRange_of_lt (toNat_lt_three hc), inRange_of_lt b.toNat_lt]

end Line

/-- The line of a well-formed command assembles to it: each operand's number is in the range of its type. -/
theorem assemble_disassemble {i : Instr} (wf : i.WellFormed) :
    assemble (disassemble i).1 (disassemble i).2 = some i := by
  cases i with
  | start c ab => exact asmByte_toNat wf ab .start
  | rstart c ab => exact asmByte_toNat wf ab .rstart
  | stop c => exact asmChannel_toNat wf .stop
  | wrb c b => exact asmByte_toNat wf b .wrb
  | rdb c k =>
    cases k with
    | ack => exact asmBit_toNat wf false fun c k => .rdb c (ackOfBit k)
    | nack => exact asmBit_toNat wf true fun c k => .rdb c (ackOfBit k)
  | busrst c => exact asmChannel_toNat wf .busrst
  | temp c => exact asmChannel_toNat wf .temp
  | owrst c a7 => exact asmAddr_toNat wf a7 .owrst
  | owcfg c a7 => exact asmAddr_toNat wf a7 .owcfg
  | owdet c a7 => exact asmAddr_toNat wf a7 .owdet
  | owtrp c dir a7 =>
    cases dir with
    | false => exact asmAddr_toNat wf a7 fun c a7 => .owtrp c false a7
    | true => exact asmAddr_toNat wf a7 fun c a7 => .owtrp c true a7

theorem asmOpText_disassemble (i : Instr) : asmOpText (disassemble i).1 = instrMnemonic i := by
  cases i <;> rfl

/-- Settles O8: the numbers of a command are its operands', and R86's ranges are those of the operands' types. -/
theorem everyCommandHasItsAssemblyLine : Obligations.EveryCommandHasItsAssemblyLine :=
  fun i wf => ⟨assemble_disassemble wf, asmOpText_disassemble i⟩

/-! The pseudo-instructions. -/

theorem shiftLeft_or_bit (a : Nat) (d : Bool) : (a <<< 1) ||| d.toNat = 2 * a + d.toNat := by
  rw [Nat.shiftLeft_eq, Nat.mul_comm]
  exact (Nat.two_pow_add_eq_or_of_lt (i := 1) d.toNat_lt a).symm

/-- A 7-bit address with a direction bit is the address byte, and one is in range exactly when the other is. -/
theorem asmAddr_addressByte (c a : Nat) (d : Bool) (k : BitVec 2 → Byte → Instr) :
    asmAddr c a (fun c a7 => k c (addressByte a7 d)) = asmByte c ((a <<< 1) ||| d.toNat) k := by
  have bit := d.toNat_lt
  simp only [asmAddr, asmByte, shiftLeft_or_bit]
  by_cases h : a < 128
  · have byte : addressByte (BitVec.ofNat 7 a) d = BitVec.ofNat 8 (2 * a + d.toNat) := by
      apply BitVec.eq_of_toNat_eq
      rw [addressByte_toNat, BitVec.toNat_ofNat, BitVec.toNat_ofNat]
      omega
    simp [inRange, h, byte, show 2 * a + d.toNat < 256 by omega]
  · simp [inRange, h, show ¬ 2 * a + d.toNat < 256 by omega]

/-- Settles O7: a pseudo-instruction fixes the direction bit, the acknowledgement or the direction of its expansion. -/
theorem pseudoInstructionsExpand : Obligations.PseudoInstructionsExpand := by
  intro c a7
  have start := asmAddr_addressByte c a7 (k := .start)
  have rstart := asmAddr_addressByte c a7 (k := .rstart)
  exact ⟨start false, start true, rstart true, rstart false, rfl, rfl, rfl, rfl⟩

/-- Settles O5: the text, the word and the command of every example are closed data. -/
theorem specExampleWordsDecode : Obligations.SpecExampleWordsDecode := by
  unfold Obligations.SpecExampleWordsDecode
  decide

/-! What RES and ERR hold after each command (30_encoding.md R85, 60_exceptions.md R221). -/

/-- The state t comes from a commit of a pair that R85's table allows the command i. -/
def CommitsAllowed (i : Instr) (t : State) : Prop := ∃ u res err, t = finish res err u ∧ resultAllowed i res err

theorem ackWord_cases (a : Ack) : ackWord a = 0x0000#16 ∨ ackWord a = 0x0001#16 := by
  cases a
  · exact .inl rfl
  · exact .inr rfl

theorem byteWord_lt (b : Byte) : (byteWord b).toNat < 256 := by
  have := b.isLt
  simp [byteWord]
  omega

/-- A masked word as a number: its three low bits are 0 (42_temperature.md R162). -/
theorem masked_toNat (raw : Word) : (raw &&& 0xFFF8#16).toNat = raw.toNat / 8 * 8 := by
  have shift : raw &&& 0xFFF8#16 = raw >>> 3 <<< 3 := by
    ext i hi
    simp
    interval_cases i <;> simp
  have := raw.isLt
  rw [shift]
  simp [Nat.shiftRight_eq_div_pow, Nat.shiftLeft_eq]
  omega

/-- The subtraction from full scale gives the masked word again (42_temperature.md R162, R163). -/
theorem tempDecode_eq_masked (raw : Word) : tempDecode raw = raw &&& 0xFFF8#16 := by
  have := raw.isLt
  have low : (raw &&& 0xFFF8#16 &&& 0x7FFF#16).toNat = (raw &&& 0xFFF8#16).toNat % 2 ^ 15 := by
    rw [BitVec.toNat_and]
    exact Nat.and_two_pow_sub_one_eq_mod _ 15
  have sign : raw.getLsbD 15 = true ↔ 32768 ≤ raw.toNat := by
    rw [BitVec.getLsbD, Nat.testBit_eq_decide_div_mod_eq, decide_eq_true_iff]
    omega
  apply BitVec.eq_of_toNat_eq
  simp only [tempDecode, Config.tempFullScale, low, masked_toNat, sign, BitVec.toNat_ofInt]
  split <;> omega

theorem tempDecode_mod_eight (raw : Word) : (tempDecode raw).toNat % 8 = 0 := by
  rw [tempDecode_eq_masked, masked_toNat]
  omega

theorem owrstBody_code (q : Config.Params) (c : Channel) (a7 : Addr7) (s : State) :
    (owrstBody q c a7 s).1 = .ok ∨ (owrstBody q c a7 s).1 = .noAck ∨ (owrstBody q c a7 s).1 = .resetStatus := by
  simp only [owrstBody]
  split
  · exact .inr (.inl rfl)
  · split
    · exact .inl rfl
    · exact .inr (.inr rfl)

theorem owcfgBody_code (q : Config.Params) (c : Channel) (a7 : Addr7) (s : State) :
    (owcfgBody q c a7 s).1 = .ok ∨ (owcfgBody q c a7 s).1 = .noAck ∨ (owcfgBody q c a7 s).1 = .verifyFail := by
  simp only [owcfgBody]
  split
  · exact .inr (.inl rfl)
  · split
    · exact .inl rfl
    · exact .inr (.inr rfl)

theorem detect_code (q : Config.Params) (c : Channel) (a7 : Addr7) (s : State) :
    (detect q c a7 s).1 = .ok ∨ (detect q c a7 s).1 = .noAck ∨ (detect q c a7 s).1 = .resetStatus ∨
      (detect q c a7 s).1 = .verifyFail := by
  simp only [detect]
  split
  · rcases owcfgBody_code q c a7 (owrstBody q c a7 s).2 with h | h | h <;> simp [h]
  · rcases owrstBody_code q c a7 s with h | h | h <;> simp [h]

theorem sweepTemp_commitsAllowed (f : BitVec 2) (q : Config.Params) (c : Channel) : ∀ (is : List Nat) (s : State),
    CommitsAllowed (.temp f) (sweepTemp q c is s)
  | [], _ => ⟨_, _, _, rfl, .inr ⟨rfl, rfl⟩⟩
  | i :: is, s => by
    simp only [sweepTemp]
    split
    · exact ⟨_, _, _, rfl, .inl ⟨rfl, tempDecode_mod_eight _⟩⟩
    · exact sweepTemp_commitsAllowed f q c is _

theorem triplet_commitsAllowed (f : BitVec 2) (q : Config.Params) (c : Channel) (dir : Bool) (a7 : Addr7) (s : State) :
    CommitsAllowed (.owtrp f dir a7) (triplet q c dir a7 s) := by
  simp only [triplet, pollTriplet]
  split
  · exact ⟨_, _, _, rfl, .inr ⟨.inl rfl, rfl⟩⟩
  · split
    · exact ⟨_, _, _, rfl, .inr ⟨.inr rfl, rfl⟩⟩
    · exact ⟨_, _, _, rfl, .inl ⟨rfl, byteWord_lt _⟩⟩

theorem recovery_allowed (f : BitVec 2) : ∀ r : Recovery, resultAllowed (.busrst f) (recoveryCode r) (recoveryErr r)
  | .cleared => .inl ⟨rfl, rfl⟩
  | .sclStuck => .inr ⟨rfl, .inl rfl⟩
  | .sdaClockStretchTimeout => .inr ⟨rfl, .inr (.inl rfl)⟩
  | .sdaStuck => .inr ⟨rfl, .inr (.inr rfl)⟩

/-- The commit of a bridge command: the word of "ERR is OK", and the code. -/
theorem finishBool_commitsAllowed {i : Instr} (x : ErrCode × State) (h : resultAllowed i (boolWord (x.1 = .ok)) x.1) :
    CommitsAllowed i (finishBool x) :=
  ⟨_, _, _, rfl, h⟩

theorem exec_commitsAllowed {i : Instr} {s t : State} {ch : Channel} (hc : channelOf i.chField = some ch)
    (h : exec i s = .next t) : CommitsAllowed i t := by
  have body {c : BitVec 2} {b : Channel → State} (hc : channelOf c = some ch) (h : onChannel c s b = .next t)
      (allowed : CommitsAllowed i (b ch)) : CommitsAllowed i t := by
    obtain rfl : b ch = t := by simpa [onChannel_some hc] using h
    exact allowed
  cases i with
  | start c ab => exact body hc h ⟨_, _, _, rfl, rfl, ackWord_cases _⟩
  | rstart c ab => exact body hc h ⟨_, _, _, rfl, rfl, ackWord_cases _⟩
  | stop c => exact body hc h ⟨_, _, _, rfl, rfl, rfl⟩
  | wrb c b => exact body hc h ⟨_, _, _, rfl, rfl, ackWord_cases _⟩
  | rdb c k => exact body hc h ⟨_, _, _, rfl, rfl, byteWord_lt _⟩
  | busrst c => exact body hc h ⟨_, _, _, rfl, recovery_allowed c _⟩
  | temp c => exact body hc h (sweepTemp_commitsAllowed c Config.params ch _ s)
  | owrst c a7 =>
    refine body hc h (finishBool_commitsAllowed _ ?_)
    rcases owrstBody_code Config.params ch a7 s with e | e | e <;> simp [resultAllowed, e, boolWord]
  | owcfg c a7 =>
    refine body hc h (finishBool_commitsAllowed _ ?_)
    rcases owcfgBody_code Config.params ch a7 s with e | e | e <;> simp [resultAllowed, e, boolWord]
  | owdet c a7 =>
    refine body hc h (finishBool_commitsAllowed _ ?_)
    rcases detect_code Config.params ch a7 s with e | e | e | e <;> simp [resultAllowed, e, boolWord]
  | owtrp c dir a7 => exact body hc h (triplet_commitsAllowed c Config.params ch dir a7 s)

/-- Settles O30: each command ends in one commit, of a pair in its row of the table. -/
theorem resultsFollowTheTable : Obligations.ResultsFollowTheTable := by
  intro i s t wf h
  obtain ⟨ch, hc⟩ := Option.ne_none_iff_exists'.mp (mt (channelOf_none_iff i.chField).mp wf)
  obtain ⟨u, res, err, rfl, allowed⟩ := exec_commitsAllowed hc h
  exact ⟨err, rstatErr_withErr u.rstat err, allowed⟩

end Sys2Proof.Machine

/-! Family 40_bus_primitives.md. The five primitives as whole next states, the pair every command leaves, and what SDA does
while the clock is high. -/

namespace Sys2Proof.Machine

/-! The contributions every command leaves on its channel. -/

theorem EndsWith.pair {c : Channel} {p : LinePair} {br : Bool} {s t : State} (h : EndsWith c p br s t) :
    t.pair c = p := by
  obtain ⟨es, rfl⟩ := h
  exact ran_pair s c es p br

theorem pair_clearOrStuck {c : Channel} {s : State} (h : s.pair c = releasedPair) :
    (clearOrStuck c s).2.pair c = releasedPair := by
  simp only [clearOrStuck]
  split
  · simp [pair_drv, pair_smp, h, releasedPair, LinePair.released]
  · exact h

/-- BUSRST leaves both lines released, whichever way it ends (41_bus_recovery.md R140). -/
theorem pair_recover (c : Channel) (s : State) : (recover c s).2.pair c = releasedPair := by
  have lead : (smp c .scl (drv c .sda .z (drv c .scl .z s))).2.pair c = .released := pair_recoverLead c s
  simp only [recover]
  split
  · have pulsed := pair_pulseWhileLow c Config.recoveryPulses _ lead
    split
    · exact pair_clearOrStuck pulsed
    · exact pulsed
  · exact lead

/-- Settles O31: each body ends with its pair from any state, and the commit leaves the pair. -/
theorem everyCommandEndsWithItsPair : Obligations.EveryCommandEndsWithItsPair := by
  intro i s t ch hc h
  have body {c : BitVec 2} {b : Channel → State} (hc : channelOf c = some ch) (h : onChannel c s b = .next t)
      (e : ∃ u res err, b ch = finish res err u ∧ u.pair ch = finalPair i) : t.pair ch = finalPair i := by
    obtain ⟨u, res, err, hb, pair⟩ := e
    obtain rfl : b ch = t := by simpa [onChannel_some hc] using h
    exact hb ▸ pair
  have start := EndsWith.refl ch s
  cases i with
  | start c ab => exact body hc h ⟨_, _, _, rfl, (start.startBody ab).pair⟩
  | rstart c ab => exact body hc h ⟨_, _, _, rfl, (start.rstartBody ab).pair⟩
  | stop c => exact body hc h ⟨_, _, _, rfl, start.stopBody.pair⟩
  | wrb c b => exact body hc h ⟨_, _, _, rfl, (start.wrbBody b).pair⟩
  | rdb c k =>
    cases k with
    | ack => exact body hc h ⟨_, _, _, rfl, start.rdbBody_ack.pair⟩
    | nack => exact body hc h ⟨_, _, _, rfl, start.rdbBody_nack.pair⟩
  | busrst c => exact body hc h ⟨_, _, _, rfl, pair_recover ch s⟩
  | temp c =>
    obtain ⟨u, res, err, eq, ends⟩ := start.sweepTemp Config.params 0 [1, 2, 3]
    exact body hc h ⟨u, res, err, eq, ends.pair⟩
  | owrst c a7 => exact body hc h ⟨_, _, _, rfl, (start.owrstBody Config.params a7).pair⟩
  | owcfg c a7 => exact body hc h ⟨_, _, _, rfl, (start.owcfgBody Config.params a7).pair⟩
  | owdet c a7 => exact body hc h ⟨_, _, _, rfl, (start.detect Config.params a7).pair⟩
  | owtrp c dir a7 =>
    obtain ⟨u, res, err, eq, ends⟩ := start.triplet Config.params dir a7
    exact body hc h ⟨u, res, err, eq, ends.pair⟩

/-! Each primitive as its whole next state (R101 to R105). -/

section Primitives

variable {c : BitVec 2} {ch : Channel}

theorem exec_start (hc : channelOf c = some ch) (ab : Byte) (s : State) :
    exec (.start c ab) s =
      .next (after s ch (startEvents ch ab (answerAfter s (startLead ch ab) ch .sda)) heldPair
        (decide (s.line ch .sda = .l)) (if answerAfter s (startLead ch ab) ch .sda then 0x0001#16 else 0x0000#16) .ok) := by
  rw [← startReady_iff, ← ackWord_ackOfBit]
  simp only [exec, execStart, onChannel_some hc, startBody_eq]
  rfl

theorem exec_rstart (hc : channelOf c = some ch) (ab : Byte) (s : State) :
    exec (.rstart c ab) s =
      .next (after s ch (rstartEvents ch ab (answerAfter s (rstartLead ch ab) ch .sda)) heldPair
        (decide (s.line ch .scl ≠ .l)) (if answerAfter s (rstartLead ch ab) ch .sda then 0x0001#16 else 0x0000#16) .ok) := by
  rw [← rstartReady_iff, ← ackWord_ackOfBit]
  simp only [exec, execRstart, onChannel_some hc, rstartBody_eq]
  rfl

theorem exec_stop (hc : channelOf c = some ch) (s : State) :
    exec (.stop c) s =
      .next (after s ch (stopEvents ch) idlePair (decide (s.line ch .sda ≠ .l)) 0x0000#16 .ok) := by
  rw [← stopReady_iff]
  simp only [exec, execStop, onChannel_some hc, stopBody_eq]
  rfl

theorem exec_wrb (hc : channelOf c = some ch) (b : Byte) (s : State) :
    exec (.wrb c b) s =
      .next (after s ch (wrbEvents ch b (answerAfter s (wrbLead ch b) ch .sda)) heldPair false
        (if answerAfter s (wrbLead ch b) ch .sda then 0x0001#16 else 0x0000#16) .ok) := by
  rw [← ackWord_ackOfBit]
  simp only [exec, execWrb, onChannel_some hc, wrbBody_eq]
  rfl

/-- What the environment answers to RDB's eight samples, from the state before the command (R105). -/
def rdbAnswers (s : State) (ch : Channel) : List Bool := readAnswers s ch 8 (settled ch .scl .l ++ settled ch .sda .z)

theorem rdbAnswers_length (s : State) (ch : Channel) : (rdbAnswers s ch).length = 8 := readAnswers_length s ch 8 _

theorem rdbAnswers_pending {s : State} {b : Byte} {rest : List Bool} (h : s.answers = bitsMsb b ++ rest) (ch : Channel) :
    rdbAnswers s ch = bitsMsb b :=
  readAnswers_pending s ch rest (bitsMsb b) [] _ h (by simp)

theorem exec_rdb (hc : channelOf c = some ch) (k : Ack) (s : State) :
    exec (.rdb c k) s =
      .next (after s ch (rdbEvents ch k (rdbAnswers s ch)) (finalPair (.rdb c k)) false
        (BitVec.ofNat 16 (bitsNumber (rdbAnswers s ch))) .ok) := by
  rw [← byteWord_byteOfBits _ (rdbAnswers_length s ch)]
  simp only [exec, execRdb, onChannel_some hc, rdbBody_eq]
  cases k <;> rfl

end Primitives

/-! The events of a command, and their counts. -/

@[simp] theorem after_trace (s : State) (c : Channel) (es : List Event) (p : LinePair) (br : Bool) (res : Word) (err : ErrCode) :
    (after s c es p br res err).trace = s.trace ++ es := by
  simp [after]

/-- A command's next state fixes its events. -/
theorem events_of_exec {i : Instr} {s t : State} {c : Channel} {es es' : List Event} {p : LinePair} {br : Bool} {res : Word}
    {err : ErrCode} (run : exec i s = .next (after s c es' p br res err)) (h : exec i s = .next t)
    (trace : t.trace = s.trace ++ es) : es = es' := by
  obtain rfl := Host.Outcome.next.inj (run.symm.trans h)
  simpa using trace.symm

theorem countWait_append (n : Nat) (es es' : List Event) :
    countWait n (es ++ es') = countWait n es + countWait n es' := by
  simp [countWait]

/-- As many settling waits as drives (20_memory.md R64). -/
theorem Emits.countWait_one {c : Channel} {rec : Bool} {s : State} {es : List Event} (h : Emits c rec s es) :
    countWait 1 es = countDrv es := by
  induction h with
  | none => rfl
  | drv _ l v ih => rw [countWait_append, countDrv_append, ih]; rfl
  | smp _ l _ _ _ ih => rw [countWait_append, countDrv_append, ih]; rfl
  | stretch _ _ ih => rw [countWait_append, countDrv_append, ih]; rfl

theorem exec_countWait_one {i : Instr} {s : State} {c : Channel} {es : List Event} {p : LinePair} {br : Bool} {res : Word}
    {err : ErrCode} (run : exec i s = .next (after s c es p br res err)) : countWait 1 es = countDrv es := by
  obtain ⟨ch, emits⟩ := exec_emits run (after_trace ..)
  exact emits.countWait_one

/-- Settles O32: START_body's trace, its check and its commit. -/
theorem startCompletes : Obligations.StartCompletes := by
  intro c ch ab s hc
  have run := exec_start hc ab s
  have drives := countDrv_startEvents ch ab (answerAfter s (startLead ch ab) ch .sda)
  exact ⟨_, rfl, run, drives, countSmp_startEvents .., (exec_countWait_one run).trans drives⟩

/-- Settles O33: RSTART_body's trace, its check and its commit. -/
theorem rstartCompletes : Obligations.RstartCompletes := by
  intro c ch ab s hc
  have run := exec_rstart hc ab s
  have drives := countDrv_rstartEvents ch ab (answerAfter s (rstartLead ch ab) ch .sda)
  exact ⟨_, rfl, run, drives, countSmp_rstartEvents .., (exec_countWait_one run).trans drives⟩

/-- Settles O34: STOP_body's trace, its check and its commit. -/
theorem stopCompletes : Obligations.StopCompletes := by
  intro c ch s hc
  have run := exec_stop hc s
  have drives := countDrv_stopEvents ch
  exact ⟨run, drives, countSmp_stopEvents ch, (exec_countWait_one run).trans drives⟩

/-- Settles O35: WRB_body's trace and its commit; WRB checks nothing. -/
theorem wrbCompletes : Obligations.WrbCompletes := by
  intro c ch b s hc
  have run := exec_wrb hc b s
  have drives := countDrv_wrbEvents ch b (answerAfter s (wrbLead ch b) ch .sda)
  exact ⟨_, rfl, run, drives, countSmp_wrbEvents .., (exec_countWait_one run).trans drives⟩

/-- Settles O36: RDB_body's trace with the environment's eight answers, and pending answers are those answers. -/
theorem rdbCompletes : Obligations.RdbCompletes := by
  intro c ch k s hc
  have run := exec_rdb hc k s
  have length := rdbAnswers_length s ch
  refine ⟨⟨rdbAnswers s ch, length, run, ?_, (countSmp_rdbEvents ..).trans length, ?_⟩, fun b rest pending => ?_⟩
  · rw [countDrv_rdbEvents, length]
    cases k <;> rfl
  · rw [exec_countWait_one run, countDrv_rdbEvents, length]
    cases k <;> rfl
  · rw [run, ← byteWord_byteOfBits _ length, rdbAnswers_pending pending, byteOfBits_bitsMsb, byteWord_eq]

/-! The pair that a list of events carries along. -/

@[simp] theorem pairAfter_smp (c c' : Channel) (p : LinePair) (l : Line) (b : Bool) : pairAfter c p (.smp c' l b) = p := rfl

@[simp] theorem foldl_pairAfter_settled (c : Channel) (p : LinePair) (l : Line) (v : Drive) :
    (settled c l v).foldl (pairAfter c) p = pairSet p l v := by
  simp [settled, pairAfter]

/-- Every bit of WRB ends with the clock low (R104). -/
theorem scl_foldl_writeCycles (c : Channel) (bits : List Bool) (p : LinePair) (low : p.scl = .l) :
    ((bits.flatMap (writeCycle c)).foldl (pairAfter c) p).scl = .l := by
  induction bits generalizing p with
  | nil => exact low
  | cons b bits ih => simpa [writeCycle] using ih _ rfl

/-- Every bit of RDB ends with the clock low and leaves SDA (R105). -/
theorem foldl_readCycles (c : Channel) (bits : List Bool) (x : Drive) :
    (bits.flatMap (readCycle c)).foldl (pairAfter c) { scl := .l, sda := x } = { scl := .l, sda := x } := by
  induction bits with
  | nil => rfl
  | cons b bits ih => simpa [readCycle] using ih

/-! The SDA edges while the clock is driven high (R108). -/

/-- The changes of SDA on a channel while SCL is driven H. -/
def clockHighEdges (c : Channel) (p : LinePair) (es : List Event) : List SdaEdge :=
  (sdaEdges c p es).filter (fun e => e.scl = .h)

theorem sdaEdges_append (c : Channel) (p : LinePair) (es es' : List Event) :
    sdaEdges c p (es ++ es') = sdaEdges c p es ++ sdaEdges c (es.foldl (pairAfter c) p) es' := by
  induction es generalizing p with
  | nil => rfl
  | cons e es ih => simp [sdaEdges, ih]

@[simp] theorem clockHighEdges_nil (c : Channel) (p : LinePair) : clockHighEdges c p [] = [] := rfl

@[simp] theorem clockHighEdges_append (c : Channel) (p : LinePair) (es es' : List Event) :
    clockHighEdges c p (es ++ es') = clockHighEdges c p es ++ clockHighEdges c (es.foldl (pairAfter c) p) es' := by
  simp [clockHighEdges, sdaEdges_append]

@[simp] theorem clockHighEdges_smp (c c' : Channel) (p : LinePair) (l : Line) (b : Bool) (es : List Event) :
    clockHighEdges c p (.smp c' l b :: es) = clockHighEdges c p es := by
  simp [clockHighEdges, sdaEdges]

/-- A drive of the clock is no edge of SDA. -/
@[simp] theorem clockHighEdges_scl (c : Channel) (p : LinePair) (v : Drive) :
    clockHighEdges c p (settled c .scl v) = [] := by
  simp [clockHighEdges, settled, sdaEdges, pairAfter]

/-- A drive of SDA is an edge where it changes SDA, and it counts where the clock is driven high. -/
@[simp] theorem clockHighEdges_sda (c : Channel) (p : LinePair) (v : Drive) :
    clockHighEdges c p (settled c .sda v) =
      if p.scl = .h ∧ v ≠ p.sda then [{ scl := .h, before := p.sda, after := v }] else [] := by
  by_cases change : v = p.sda
  · simp [clockHighEdges, settled, sdaEdges, pairAfter, change]
  · by_cases high : p.scl = .h <;> simp [clockHighEdges, settled, sdaEdges, pairAfter, change, high]

/-- WRB presents each bit while the clock is low (R104). -/
theorem clockHighEdges_writeCycles (c : Channel) (bits : List Bool) (p : LinePair) (low : p.scl = .l) :
    clockHighEdges c p (bits.flatMap (writeCycle c)) = [] := by
  induction bits generalizing p with
  | nil => rfl
  | cons b bits ih => simpa [writeCycle, low] using ih _ rfl

/-- The read cycles of RDB drive the clock only (R105). -/
theorem clockHighEdges_readCycles (c : Channel) (bits : List Bool) (p : LinePair) :
    clockHighEdges c p (bits.flatMap (readCycle c)) = [] := by
  induction bits generalizing p with
  | nil => rfl
  | cons b bits ih => simpa [readCycle] using ih _

@[simp] theorem clockHighEdges_wrbEvents (c : Channel) (p : LinePair) (b : Byte) (a : Bool) :
    clockHighEdges c p (wrbEvents c b a) = [] := by
  simp [wrbEvents, wrbLead, clockHighEdges_writeCycles, scl_foldl_writeCycles]

@[simp] theorem clockHighEdges_startEvents (c : Channel) (p : LinePair) (ab : Byte) (a : Bool) :
    clockHighEdges c p (startEvents c ab a) =
      if p.sda = .l then [] else [{ scl := .h, before := p.sda, after := .l }] := by
  by_cases low : p.sda = .l <;> simp [startEvents, low, eq_comm (a := Drive.l)]

theorem clockHighEdges_rstartEvents (c : Channel) (p : LinePair) (ab : Byte) (a : Bool) :
    clockHighEdges c p (rstartEvents c ab a) =
      (if p.scl = .h ∧ p.sda ≠ .z then [{ scl := .h, before := p.sda, after := .z }] else []) ++
        [{ scl := .h, before := .z, after := .l }] := by
  simp [rstartEvents, eq_comm (a := Drive.z)]

@[simp] theorem clockHighEdges_stopEvents (c : Channel) (p : LinePair) :
    clockHighEdges c p (stopEvents c) =
      if p.sda = .z then [] else [{ scl := .h, before := p.sda, after := .z }] := by
  by_cases released : p.sda = .z <;> simp [stopEvents, released, eq_comm (a := Drive.z)]

/-- RDB changes SDA while the clock is low, but for the release of the trailing STOP of a NACK (R105, R107). -/
theorem clockHighEdges_rdbEvents (c : Channel) (p : LinePair) (k : Ack) (bits : List Bool) :
    clockHighEdges c p (rdbEvents c k bits) =
      match k with
      | .ack => []
      | .nack => [{ scl := .h, before := .l, after := .z }] := by
  cases k <;> simp [rdbEvents, foldl_readCycles, clockHighEdges_readCycles]

/-- The conditions the primitives make are those of the edges while the clock is driven high (00_scope.md R15). -/
theorem conditions_clockDrivenHigh (c : Channel) (p : LinePair) (es : List Event) :
    conditions clockDrivenHigh c p es = (clockHighEdges c p es).flatMap (fun e =>
      if e.after = .l then [.start] else if e.before = .l then [.stop] else []) := by
  unfold conditions clockHighEdges
  induction sdaEdges c p es with
  | nil => rfl
  | cons e edges ih =>
    by_cases high : e.scl = .h
    · by_cases pull : e.after = .l
      · simp [edgeCondition, clockDrivenHigh, high, pull, ih]
      · by_cases release : e.before = .l <;> simp [edgeCondition, clockDrivenHigh, high, pull, release, ih]
    · simp [edgeCondition, clockDrivenHigh, high, ih]

/-- Settles O38: the edges of each primitive's trace, and the conditions are theirs. -/
theorem edgesWhileClockHigh : Obligations.EdgesWhileClockHigh := by
  intro i s t ch es hc primitive h trace
  have edges : clockHighEdges ch (s.pair ch) es = highEdges (s.pair ch) i := by
    rcases primitive with ⟨c, ab, rfl⟩ | ⟨c, ab, rfl⟩ | ⟨c, rfl⟩ | ⟨c, b, rfl⟩ | ⟨c, k, rfl⟩
    · rw [events_of_exec (exec_start hc ab s) h trace]
      exact clockHighEdges_startEvents ..
    · rw [events_of_exec (exec_rstart hc ab s) h trace]
      exact clockHighEdges_rstartEvents ..
    · rw [events_of_exec (exec_stop hc s) h trace]
      exact clockHighEdges_stopEvents ..
    · rw [events_of_exec (exec_wrb hc b s) h trace]
      exact clockHighEdges_wrbEvents ..
    · rw [events_of_exec (exec_rdb hc k s) h trace, clockHighEdges_rdbEvents]
      cases k <;> rfl
  exact ⟨edges, by rw [conditions_clockDrivenHigh, edges]⟩

/-! What a slave sees at the rises of the clock (R106). -/

@[simp] theorem sdaAtRises_append (c : Channel) (p : LinePair) (es es' : List Event) :
    sdaAtRises c p (es ++ es') = sdaAtRises c p es ++ sdaAtRises c (es.foldl (pairAfter c) p) es' := by
  induction es generalizing p with
  | nil => rfl
  | cons e es ih => simp [sdaAtRises, ih]

@[simp] theorem sdaAtRises_smp (c c' : Channel) (p : LinePair) (l : Line) (b : Bool) (es : List Event) :
    sdaAtRises c p (.smp c' l b :: es) = sdaAtRises c p es := by
  simp [sdaAtRises]

@[simp] theorem sdaAtRises_scl (c : Channel) (p : LinePair) (v : Drive) :
    sdaAtRises c p (settled c .scl v) = if v = .h then [p.sda] else [] := by
  simp [settled, sdaAtRises, pairAfter]

@[simp] theorem sdaAtRises_sda (c : Channel) (p : LinePair) (v : Drive) : sdaAtRises c p (settled c .sda v) = [] := by
  simp [settled, sdaAtRises]

/-- One rise for each bit, with the bit on SDA (R104). -/
theorem sdaAtRises_writeCycles (c : Channel) (bits : List Bool) (p : LinePair) :
    sdaAtRises c p (bits.flatMap (writeCycle c)) = bits.map bitDrive := by
  induction bits generalizing p with
  | nil => rfl
  | cons b bits ih => simp [writeCycle, ih, bitDrive]

theorem sdaAtRises_wrbEvents (c : Channel) (p : LinePair) (b : Byte) (a : Bool) :
    sdaAtRises c p (wrbEvents c b a) = (bitsMsb b).map bitDrive ++ [.z] := by
  simp [wrbEvents, wrbLead, sdaAtRises_writeCycles]

/-- A slave reads a bit back from its level (R106). -/
@[simp] theorem bitDrive_eq_high (x : Bool) : decide (bitDrive x = .h) = x := by
  cases x <;> rfl

/-- Settles O37: WRB changes SDA while the clock is low, and its nine rises find the eight bits and a released SDA. -/
theorem wrbPresentsItsByte : Obligations.WrbPresentsItsByte := by
  intro c ch b s t es hc h trace
  obtain rfl := events_of_exec (exec_wrb hc b s) h trace
  have rises := sdaAtRises_wrbEvents ch (s.pair ch) b (answerAfter s (wrbLead ch b) ch .sda)
  refine ⟨?_, rises, ?_⟩
  · simpa using List.filter_eq_nil_iff.mp (clockHighEdges_wrbEvents ch (s.pair ch) b _)
  · have eight : ((bitsMsb b).map bitDrive).length = 8 := by simp
    rw [rises, ← eight, List.take_left]
    simp [Function.comp_def]

end Sys2Proof.Machine

/-! Family 41_bus_recovery.md. BUSRST by the course it takes: its loops under any answers and under given ones, the events of
each outcome with their counts, and the clearing sequence. -/

namespace Sys2Proof.Machine

/-! The loops of BUSRST, whatever the environment answers (41_bus_recovery.md R140). -/

/-- The clock sub-loop ends at the first high clock, or runs out of its tries. -/
theorem awaitClock_cases (s : State) (c : Channel) (p : LinePair) (br : Bool) : ∀ (k : Nat) (es : List Event),
    (∃ w < k, awaitClock c k (ran s c es p br) = (true, ran s c (es ++ stretchEvents c w ++ [.smp c .scl true]) p br)) ∨
      awaitClock c k (ran s c es p br) = (false, ran s c (es ++ stretchEvents c k) p br)
  | 0, es => .inr (by simp [awaitClock, stretchEvents])
  | k + 1, es => by
    cases answer : answerAfter s es c .scl with
    | true => exact .inl ⟨0, by omega, by simp [awaitClock, smp_ran, answer, stretchEvents]⟩
    | false =>
      have step : awaitClock c (k + 1) (ran s c es p br) =
          awaitClock c k (ran s c (es ++ [.smp c .scl false, .wait c 20000]) p br) := by
        simp [awaitClock, smp_ran, wait_ran, answer]
      rw [step]
      obtain ⟨w, hw, high⟩ | low := awaitClock_cases s c p br k (es ++ [.smp c .scl false, .wait c 20000])
      · exact .inl ⟨w + 1, by omega, by simp [high, stretchEvents_succ]⟩
      · exact .inr (by simp [low, stretchEvents_succ])

/-- The pulse loop stops at an SDA sample of 1. -/
theorem pulseWhileLow_high {s : State} {c : Channel} {p : LinePair} {br : Bool} {es : List Event}
    (answer : answerAfter s es c .sda = true) (n : Nat) :
    pulseWhileLow c (n + 1) (ran s c es p br) = (true, ran s c (es ++ [.smp c .sda true]) p br) := by
  simp [pulseWhileLow, smp_ran, answer]

/-- The pulse loop pulses the clock at an SDA sample of 0, and goes on if the clock returns high. -/
theorem pulseWhileLow_low {s : State} {c : Channel} {br : Bool} {es : List Event}
    (answer : answerAfter s es c .sda = false) (n : Nat) :
    pulseWhileLow c (n + 1) (ran s c es releasedPair br) =
      (let y := awaitClock c 20 (ran s c (es ++ pulseEvents c) releasedPair br)
      if y.1 then pulseWhileLow c n y.2 else (false, y.2)) := by
  simp only [pulseWhileLow, smp_ran, answer, drv_ran, pulseEvents, Bool.false_eq_true, if_false, List.append_assoc]
  rfl

/-- The pulse loop serves pulses with some waits each. Then it ends, by an SDA sample of 1 where it does not run out of
pulses, or one more pulse times out. -/
theorem pulseWhileLow_cases (s : State) (c : Channel) (br : Bool) : ∀ (n : Nat) (es : List Event),
    ∃ ws : List Nat, (∀ w ∈ ws, w ≤ 19) ∧
      ((ws.length ≤ n ∧ pulseWhileLow c n (ran s c es releasedPair br) =
          (true, ran s c (es ++ ws.flatMap (pulseServed c) ++ if ws.length < n then [.smp c .sda true] else [])
            releasedPair br)) ∨
        (ws.length < n ∧ pulseWhileLow c n (ran s c es releasedPair br) =
          (false, ran s c (es ++ ws.flatMap (pulseServed c) ++ pulseEvents c ++ stretchEvents c 20) releasedPair br)))
  | 0, es => ⟨[], by simp, .inl ⟨le_rfl, by simp [pulseWhileLow]⟩⟩
  | n + 1, es => by
    cases answer : answerAfter s es c .sda with
    | true => exact ⟨[], by simp, .inl ⟨by simp, by simp [pulseWhileLow_high answer]⟩⟩
    | false =>
      rw [pulseWhileLow_low answer]
      obtain ⟨w, hw, high⟩ | low := awaitClock_cases s c releasedPair br 20 (es ++ pulseEvents c)
      · obtain ⟨ws, waits, rest⟩ := pulseWhileLow_cases s c br n (es ++ pulseServed c w)
        refine ⟨w :: ws, by simpa using ⟨Nat.le_of_lt_succ hw, waits⟩, ?_⟩
        simpa [high, pulseServed] using rest
      · exact ⟨[], by simp, .inr ⟨by simp, by simp [low]⟩⟩

/-! BUSRST by its course (R140, R141). -/

/-- The events of BUSRST by its outcome and the waits of the pulses it served. -/
def recoveryEvents (c : Channel) (ws : List Nat) : Recovery → List Event
  | .cleared => clearedEvents c ws
  | .sclStuck => recoveryLead c false
  | .sdaClockStretchTimeout => timeoutEvents c ws
  | .sdaStuck => sdaStuckEvents c ws

/-- The events of BUSRST up to the end of its pulse loop, the loop left by an SDA sample of 1 or run out (R140). -/
def loopEvents (c : Channel) (ws : List Nat) : List Event :=
  recoveryLead c true ++ ws.flatMap (pulseServed c) ++ loopExit c ws.length

/-- How many pulses BUSRST can have served before an outcome. -/
def pulsesAllowed (n : Nat) : Recovery → Prop
  | .cleared => n ≤ 20
  | .sclStuck => n = 0
  | .sdaClockStretchTimeout => n < 20
  | .sdaStuck => n ≤ 20

/-- The procedure after a first clock sample of 0. -/
theorem recover_sclLow {c : Channel} {s : State}
    (answer : answerAfter s (settled c .scl .z ++ settled c .sda .z) c .scl = false) :
    recover c s = (.sclStuck, ran s c (recoveryLead c false) releasedPair false) := by
  simp [recover, drv_eq_ran, smp_ran, answer, recoveryLead, releasedPair, LinePair.released]

/-- The procedure after a first clock sample of 1. -/
theorem recover_sclHigh {c : Channel} {s : State}
    (answer : answerAfter s (settled c .scl .z ++ settled c .sda .z) c .scl = true) :
    recover c s =
      (let y := pulseWhileLow c 20 (ran s c (recoveryLead c true) releasedPair false)
      if y.1 then clearOrStuck c y.2 else (.sdaClockStretchTimeout, y.2)) := by
  simp [recover, drv_eq_ran, smp_ran, answer, recoveryLead, releasedPair, LinePair.released]

/-- The fresh SDA sample after the pulse loop decides. -/
theorem clearOrStuck_ran (s : State) (c : Channel) (br : Bool) (es : List Event) :
    clearOrStuck c (ran s c es releasedPair br) =
      if answerAfter s es c .sda then
        (.cleared, ran s c (es ++ [.smp c .sda true] ++ settled c .sda .l ++ settled c .sda .z) releasedPair br)
      else (.sdaStuck, ran s c (es ++ [.smp c .sda false]) releasedPair br) := by
  cases answer : answerAfter s es c .sda <;>
    simp [clearOrStuck, smp_ran, answer, drv_ran, releasedPair, LinePair.released]

/-- The whole pulse loop, after the lead: it ends, or a clock stays low. -/
theorem pulseLoop_cases (s : State) (c : Channel) : ∃ ws : List Nat, (∀ w ∈ ws, w ≤ 19) ∧
    ((ws.length ≤ 20 ∧ pulseWhileLow c 20 (ran s c (recoveryLead c true) releasedPair false) =
        (true, ran s c (loopEvents c ws) releasedPair false)) ∨
      (ws.length < 20 ∧ pulseWhileLow c 20 (ran s c (recoveryLead c true) releasedPair false) =
        (false, ran s c (timeoutEvents c ws) releasedPair false))) :=
  pulseWhileLow_cases s c false 20 (recoveryLead c true)

/-- BUSRST takes one of the courses of R140, in any environment. -/
theorem recover_cases (c : Channel) (s : State) :
    ∃ (r : Recovery) (ws : List Nat), (∀ w ∈ ws, w ≤ 19) ∧ pulsesAllowed ws.length r ∧
      recover c s = (r, ran s c (recoveryEvents c ws r) releasedPair false) := by
  cases answer : answerAfter s (settled c .scl .z ++ settled c .sda .z) c .scl with
  | false => exact ⟨.sclStuck, [], by simp, rfl, recover_sclLow answer⟩
  | true =>
    rw [recover_sclHigh answer]
    obtain ⟨ws, waits, ⟨length, ended⟩ | ⟨length, timeout⟩⟩ := pulseLoop_cases s c
    · simp only [ended, if_true, clearOrStuck_ran]
      split
      · exact ⟨.cleared, ws, waits, length, rfl⟩
      · exact ⟨.sdaStuck, ws, waits, length, rfl⟩
    · exact ⟨.sdaClockStretchTimeout, ws, waits, length, by simp only [timeout]; rfl⟩

/-- BUSRST commits the outcome of its procedure. -/
theorem exec_busrst {f : BitVec 2} {c : Channel} (hc : channelOf f = some c) {s : State} {r : Recovery} {es : List Event}
    (h : recover c s = (r, ran s c es releasedPair false)) :
    exec (.busrst f) s = .next (after s c es releasedPair false (recoveryCode r) (recoveryErr r)) := by
  simp only [exec, execBusrst, onChannel_some hc, h]
  rfl

/-! BUSRST under given answers (R140, R144). -/

/-- The pulse loop ends by the answers that leave it, which are none where no pulse is left. -/
theorem pulseWhileLow_exit (s : State) (c : Channel) (p : LinePair) (br : Bool) (as rest : List Bool) (es : List Event)
    {pulses : Nat} (le : pulses ≤ 20) (answers : s.answers = as ++ (exitAnswers pulses ++ rest))
    (taken : countSmp es = as.length) :
    pulseWhileLow c (20 - pulses) (ran s c es p br) = (true, ran s c (es ++ loopExit c pulses) p br) := by
  by_cases more : pulses < 20
  · have answer := answerAfter_pending s es c .sda as rest true (by simpa [exitAnswers, more] using answers) taken
    obtain ⟨n, left⟩ : ∃ n, 20 - pulses = n + 1 := ⟨19 - pulses, by omega⟩
    rw [left, pulseWhileLow_high answer]
    simp [loopExit, more]
  · obtain rfl : pulses = 20 := by omega
    simp [pulseWhileLow, loopExit]

theorem countSmp_pulsesServed (c : Channel) (ws : List Nat) :
    countSmp (ws.flatMap (pulseServed c)) = (ws.flatMap pulseAnswers).length := by
  induction ws with
  | nil => rfl
  | cons w ws ih =>
    have pulse : w + 2 = (pulseAnswers w).length := by simp [pulseAnswers]
    rw [List.flatMap_cons, countSmp_append, ih, countSmp_pulseServed, pulse, List.flatMap_cons, List.length_append]

/-- Served pulses after a high clock take exactly the answers that serve them. -/
theorem countSmp_leadServed (c : Channel) (ws : List Nat) :
    countSmp (recoveryLead c true ++ ws.flatMap (pulseServed c)) = (true :: ws.flatMap pulseAnswers).length := by
  have lead : countSmp (recoveryLead c true) = 1 := rfl
  rw [countSmp_append, lead, countSmp_pulsesServed, Nat.add_comm, List.length_cons]

theorem countSmp_loopExit (c : Channel) (pulses : Nat) : countSmp (loopExit c pulses) = (exitAnswers pulses).length := by
  by_cases more : pulses < 20 <;> simp [loopExit, exitAnswers, more]

section Scripted

variable {s : State} {ws : List Nat} {rest : List Bool} (c : Channel) (waits : ∀ w ∈ ws, w ≤ 19)
include waits

/-- A clock answered high and pulses served as the answers say lead the procedure to the rest of its pulse loop. -/
theorem recover_served (length : ws.length ≤ 20) (answers : s.answers = true :: (ws.flatMap pulseAnswers ++ rest)) :
    recover c s =
      (let y := pulseWhileLow c (20 - ws.length)
        (ran s c (recoveryLead c true ++ ws.flatMap (pulseServed c)) releasedPair false)
      if y.1 then clearOrStuck c y.2 else (.sdaClockStretchTimeout, y.2)) := by
  have served := pulseWhileLow_served s c false rest (20 - ws.length) ws [true] (recoveryLead c true)
    (fun w hw => Nat.lt_succ_of_le (waits w hw)) answers rfl
  rw [Nat.add_sub_cancel' length] at served
  rw [recover_sclHigh (answerAfter_pending s _ c .scl [] _ true answers rfl)]
  exact congrArg (fun y : Bool × State => if y.1 then clearOrStuck c y.2 else (.sdaClockStretchTimeout, y.2)) served

/-- Where the answers leave the pulse loop, the next one decides. -/
theorem recover_loopLeft {b : Bool} (length : ws.length ≤ 20)
    (answers : s.answers = true :: (ws.flatMap pulseAnswers ++ exitAnswers ws.length ++ b :: rest)) :
    recover c s = if b then (.cleared, ran s c (clearedEvents c ws) releasedPair false)
      else (.sdaStuck, ran s c (sdaStuckEvents c ws) releasedPair false) := by
  have exit : pulseWhileLow c (20 - ws.length)
      (ran s c (recoveryLead c true ++ ws.flatMap (pulseServed c)) releasedPair false) =
        (true, ran s c (loopEvents c ws) releasedPair false) :=
    pulseWhileLow_exit s c releasedPair false (true :: ws.flatMap pulseAnswers) (b :: rest) _ length
      (by simpa using answers) (countSmp_leadServed c ws)
  have last := answerAfter_pending s (loopEvents c ws) c .sda
    (true :: (ws.flatMap pulseAnswers ++ exitAnswers ws.length)) rest b (by simpa using answers)
    (by rw [loopEvents, countSmp_append, countSmp_leadServed, countSmp_loopExit, ← List.length_append]; rfl)
  rw [recover_served c waits length (by simpa using answers)]
  simp only [exit, if_true, clearOrStuck_ran, last]
  rfl

/-- Where the clock stays low after one more pulse, the procedure times out. -/
theorem recover_timeout (length : ws.length < 20)
    (answers : s.answers = true :: (ws.flatMap pulseAnswers ++ false :: (List.replicate 20 false ++ rest))) :
    recover c s = (.sdaClockStretchTimeout, ran s c (timeoutEvents c ws) releasedPair false) := by
  have low := answerAfter_pending s _ c .sda (true :: ws.flatMap pulseAnswers) _ false (by simpa using answers)
    (countSmp_leadServed c ws)
  have stretched := awaitClock_low s c releasedPair false rest 20 (true :: ws.flatMap pulseAnswers ++ [false])
    (recoveryLead c true ++ ws.flatMap (pulseServed c) ++ pulseEvents c) (by simpa using answers)
    (by rw [countSmp_append, countSmp_leadServed, countSmp_pulseEvents, List.length_append]; rfl)
  obtain ⟨n, left⟩ : ∃ n, 20 - ws.length = n + 1 := ⟨19 - ws.length, by omega⟩
  rw [recover_served c waits length.le answers, left]
  simp only [pulseWhileLow_low low, stretched]
  rfl

end Scripted

/-! The counts of R144. -/

/-- The drives, samples and stretch waits of a trace. -/
def Counts (es : List Event) (drives samples waits : Nat) : Prop :=
  countDrv es = drives ∧ countSmp es = samples ∧ countWait 20000 es = waits

theorem Counts.append {es es' : List Event} {d n w d' n' w' : Nat} (h : Counts es d n w) (h' : Counts es' d' n' w') :
    Counts (es ++ es') (d + d') (n + n') (w + w') := by
  obtain ⟨drives, samples, waits⟩ := h
  obtain ⟨drives', samples', waits'⟩ := h'
  exact ⟨by rw [countDrv_append, drives, drives'], by rw [countSmp_append, samples, samples'],
    by rw [countWait_append, waits, waits']⟩

/-- Counts may be written in any equal way. -/
theorem Counts.congr {es : List Event} {d n w d' n' w' : Nat} (h : Counts es d n w) (hd : d = d') (hn : n = n')
    (hw : w = w') : Counts es d' n' w' :=
  hd ▸ hn ▸ hw ▸ h

theorem counts_settled (c : Channel) (l : Line) (v : Drive) : Counts (settled c l v) 1 0 0 := ⟨rfl, rfl, rfl⟩

theorem counts_smp (c : Channel) (l : Line) (b : Bool) : Counts [.smp c l b] 0 1 0 := ⟨rfl, rfl, rfl⟩

theorem counts_recoveryLead (c : Channel) (b : Bool) : Counts (recoveryLead c b) 2 1 0 := ⟨rfl, rfl, rfl⟩

theorem counts_pulseEvents (c : Channel) : Counts (pulseEvents c) 2 1 0 := ⟨rfl, rfl, rfl⟩

theorem counts_stretchEvents (c : Channel) (n : Nat) : Counts (stretchEvents c n) 0 n n := by
  induction n with
  | zero => exact ⟨rfl, rfl, rfl⟩
  | succ n ih =>
    have one : Counts [.smp c .scl false, .wait c 20000] 0 1 1 := ⟨rfl, rfl, rfl⟩
    rw [stretchEvents_succ]
    exact (one.append ih).congr rfl (Nat.add_comm ..) (Nat.add_comm ..)

theorem counts_pulseServed (c : Channel) (w : Nat) : Counts (pulseServed c w) 2 (w + 2) w :=
  (((counts_pulseEvents c).append (counts_stretchEvents c w)).append (counts_smp c .scl true)).congr
    rfl (by omega) (by omega)

theorem counts_pulsesServed (c : Channel) (ws : List Nat) :
    Counts (ws.flatMap (pulseServed c)) (2 * ws.length) (ws.length + (ws.map (· + 1)).sum) ws.sum := by
  induction ws with
  | nil => exact ⟨rfl, rfl, rfl⟩
  | cons w ws ih =>
    rw [List.flatMap_cons, List.map_cons, List.sum_cons, List.sum_cons, List.length_cons]
    exact ((counts_pulseServed c w).append ih).congr (by omega) (by omega) rfl

/-- With the sample that ends it, the pulse loop samples SDA once more than it pulses, and at most 20 times. -/
theorem counts_loopExit (c : Channel) {pulses : Nat} (le : pulses ≤ 20) :
    Counts (loopExit c pulses) 0 (min (pulses + 1) 20 - pulses) 0 := by
  by_cases more : pulses < 20
  · have one : min (pulses + 1) 20 - pulses = 1 := by omega
    simpa [loopExit, more, one] using counts_smp c .sda true
  · obtain rfl : pulses = 20 := by omega
    exact ⟨rfl, rfl, rfl⟩

section Outcomes

variable (c : Channel) {ws : List Nat}

/-- The counts up to the end of the pulse loop. -/
theorem counts_loop (length : ws.length ≤ 20) :
    Counts (loopEvents c ws) (2 + 2 * ws.length) (1 + min (ws.length + 1) 20 + (ws.map (· + 1)).sum) ws.sum :=
  (((counts_recoveryLead c true).append (counts_pulsesServed c ws)).append (counts_loopExit c length)).congr
    rfl (by omega) (by omega)

theorem counts_sdaStuckEvents (length : ws.length ≤ 20) :
    Counts (sdaStuckEvents c ws) (2 + 2 * ws.length) (2 + min (ws.length + 1) 20 + (ws.map (· + 1)).sum) ws.sum :=
  ((counts_loop c length).append (counts_smp c .sda false)).congr rfl (by omega) rfl

theorem counts_clearedEvents (length : ws.length ≤ 20) :
    Counts (clearedEvents c ws) (4 + 2 * ws.length) (2 + min (ws.length + 1) 20 + (ws.map (· + 1)).sum) ws.sum :=
  ((((counts_loop c length).append (counts_smp c .sda true)).append (counts_settled c .sda .l)).append
    (counts_settled c .sda .z)).congr (by omega) (by omega) rfl

theorem counts_timeoutEvents (ws : List Nat) :
    Counts (timeoutEvents c ws) (2 + 2 * (ws.length + 1)) (1 + (ws.length + 1) + (ws.map (· + 1)).sum + 20) (ws.sum + 20) :=
  ((((counts_recoveryLead c true).append (counts_pulsesServed c ws)).append (counts_pulseEvents c)).append
    (counts_stretchEvents c 20)).congr (by omega) (by omega) (by omega)

/-- The worst courses of R144: 20 pulses of 19 waits, or 19 of them and a timeout. -/
theorem recoveryEvents_bounded (waits : ∀ w ∈ ws, w ≤ 19) {r : Recovery} (pulses : pulsesAllowed ws.length r) :
    countDrv (recoveryEvents c ws r) ≤ 44 ∧ countSmp (recoveryEvents c ws r) ≤ 422 ∧
      countWait 20000 (recoveryEvents c ws r) ≤ 381 := by
  have total : ws.sum ≤ ws.length * 19 := List.sum_le_card_nsmul ws 19 waits
  have looks : (ws.map (· + 1)).sum = ws.sum + ws.length := by simp
  suffices ∃ d n w, Counts (recoveryEvents c ws r) d n w ∧ d ≤ 44 ∧ n ≤ 422 ∧ w ≤ 381 by
    obtain ⟨d, n, w, ⟨rfl, rfl, rfl⟩, bounds⟩ := this
    exact bounds
  cases r with
  | cleared =>
    have : ws.length ≤ 20 := pulses
    exact ⟨_, _, _, counts_clearedEvents c pulses, by omega, by omega, by omega⟩
  | sclStuck => exact ⟨_, _, _, counts_recoveryLead c false, by omega, by omega, by omega⟩
  | sdaClockStretchTimeout =>
    have : ws.length < 20 := pulses
    exact ⟨_, _, _, counts_timeoutEvents c ws, by omega, by omega, by omega⟩
  | sdaStuck =>
    have : ws.length ≤ 20 := pulses
    exact ⟨_, _, _, counts_sdaStuckEvents c pulses, by omega, by omega, by omega⟩

end Outcomes

/-- Settles O40: the first sample is the clock's, and its 0 ends the command. -/
theorem recoveryReportsSclStuck : Obligations.RecoveryReportsSclStuck := by
  intro f c s rest hc answers
  have low := recover_sclLow (answerAfter_pending s _ c .scl [] rest false answers rfl)
  exact ⟨exec_busrst hc low, counts_recoveryLead c false⟩

/-- Settles O41: the pulses served, the loop's end, and a final SDA sample of 1. -/
theorem recoveryClearsTheBus : Obligations.RecoveryClearsTheBus := by
  intro f c s ws rest hc length waits answers
  exact ⟨exec_busrst hc (recover_loopLeft c waits length answers), counts_clearedEvents c length⟩

/-- Settles O42: the pulses served, the loop's end, and a final SDA sample of 0. -/
theorem recoveryReportsSdaStuck : Obligations.RecoveryReportsSdaStuck := by
  intro f c s ws rest hc length waits answers
  exact ⟨exec_busrst hc (recover_loopLeft c waits length answers), counts_sdaStuckEvents c length⟩

/-- Settles O43: the pulses served, and one whose clock stays low. -/
theorem recoveryReportsStretchTimeout : Obligations.RecoveryReportsStretchTimeout := by
  intro f c s ws rest hc length waits answers
  exact ⟨exec_busrst hc (recover_timeout c waits length answers), counts_timeoutEvents c ws⟩

/-- Settles O44: each course of R140 is within the bounds, and an illegal command has no event. -/
theorem recoveryIsBounded : Obligations.RecoveryIsBounded := by
  intro f s
  cases hc : channelOf f with
  | some c =>
    obtain ⟨r, ws, waits, pulses, course⟩ := recover_cases c s
    exact ⟨_, _, exec_busrst hc course, after_trace .., recoveryEvents_bounded c waits pulses⟩
  | none => exact ⟨_, [], exec_illegal (i := .busrst f) hc s, by simp [illegalCommand], by decide⟩

/-! What BUSRST drives (R142, R143). -/

/-- A drive of SCL that does not drive it high, or one that releases SDA; samples and waits drive nothing. -/
def SdaKept : Event → Prop
  | .drv _ .scl v => v ≠ .h
  | .drv _ .sda v => v = .z
  | .smp _ _ _ => True
  | .wait _ _ => True

theorem sdaKept_append {es es' : List Event} (h : ∀ e ∈ es, SdaKept e) (h' : ∀ e ∈ es', SdaKept e) :
    ∀ e ∈ es ++ es', SdaKept e :=
  List.forall_mem_append.mpr ⟨h, h'⟩

theorem sdaKept_smp (c : Channel) (l : Line) (b : Bool) : ∀ e ∈ [Event.smp c l b], SdaKept e := by simp [SdaKept]

theorem sdaKept_recoveryLead (c : Channel) (b : Bool) : ∀ e ∈ recoveryLead c b, SdaKept e := by
  simp [recoveryLead, settled, SdaKept]

theorem sdaKept_pulseEvents (c : Channel) : ∀ e ∈ pulseEvents c, SdaKept e := by
  simp [pulseEvents, settled, SdaKept]

theorem sdaKept_stretchEvents (c : Channel) (n : Nat) : ∀ e ∈ stretchEvents c n, SdaKept e := by
  induction n with
  | zero => simp [stretchEvents]
  | succ n ih =>
    rw [stretchEvents_succ]
    exact sdaKept_append (by simp [SdaKept]) ih

theorem sdaKept_pulsesServed (c : Channel) (ws : List Nat) : ∀ e ∈ ws.flatMap (pulseServed c), SdaKept e := by
  intro e he
  obtain ⟨w, -, hw⟩ := List.mem_flatMap.mp he
  exact sdaKept_append (sdaKept_append (sdaKept_pulseEvents c) (sdaKept_stretchEvents c w)) (sdaKept_smp c .scl true) e hw

theorem sdaKept_loopExit (c : Channel) (pulses : Nat) : ∀ e ∈ loopExit c pulses, SdaKept e := by
  unfold loopExit
  split
  · exact sdaKept_smp c .sda true
  · simp

/-- BUSRST up to the end of its pulse loop drives SDA only by its first release. -/
theorem sdaKept_loop (c : Channel) (ws : List Nat) : ∀ e ∈ loopEvents c ws, SdaKept e :=
  sdaKept_append (sdaKept_append (sdaKept_recoveryLead c true) (sdaKept_pulsesServed c ws)) (sdaKept_loopExit c ws.length)

theorem SdaKept.not_high {d : Channel} {l : Line} {v : Drive} (h : SdaKept (.drv d l v)) : v = .z ∨ v = .l := by
  cases l with
  | scl =>
    cases v with
    | z => exact .inl rfl
    | l => exact .inr rfl
    | h => exact absurd rfl h
  | sda => exact .inl h

theorem drive_of_mem_settled {c d : Channel} {l l' : Line} {v v' : Drive} (h : Event.drv d l' v' ∈ settled c l v) :
    v' = v := by
  simp only [settled, List.mem_cons, Event.drv.injEq, reduceCtorEq, List.not_mem_nil, or_false] at h
  exact h.2.2

/-- No course drives a line high (R142). -/
theorem recoveryEvents_not_high {c d : Channel} {ws : List Nat} {r : Recovery} {l : Line} {v : Drive}
    (h : Event.drv d l v ∈ recoveryEvents c ws r) : v = .z ∨ v = .l := by
  cases r with
  | cleared =>
    rcases List.mem_append.mp h with h | released
    · rcases List.mem_append.mp h with lead | pulled
      · exact (sdaKept_append (sdaKept_loop c ws) (sdaKept_smp c .sda true) _ lead).not_high
      · exact .inr (drive_of_mem_settled pulled)
    · exact .inl (drive_of_mem_settled released)
  | sclStuck => exact (sdaKept_recoveryLead c false _ h).not_high
  | sdaClockStretchTimeout =>
    exact (sdaKept_append (sdaKept_append (sdaKept_append (sdaKept_recoveryLead c true) (sdaKept_pulsesServed c ws))
      (sdaKept_pulseEvents c)) (sdaKept_stretchEvents c 20) _ h).not_high
  | sdaStuck => exact (sdaKept_append (sdaKept_loop c ws) (sdaKept_smp c .sda false) _ h).not_high

/-- Settles O39: no course drives a line high, and every line BUSRST samples is released (R71). -/
theorem recoveryNeverDrivesHigh : Obligations.RecoveryNeverDrivesHigh := by
  intro f s t es h trace
  refine ⟨fun d l v drive => ?_, fun pre d l b post split low => ?_⟩
  · cases hc : channelOf f with
    | some c =>
      obtain ⟨r, ws, -, -, course⟩ := recover_cases c s
      obtain rfl := events_of_exec (exec_busrst hc course) h trace
      exact recoveryEvents_not_high drive
    | none =>
      obtain rfl : illegalCommand s = t := by simpa [exec_illegal (i := .busrst f) hc] using h
      obtain rfl : es = [] := by simpa [illegalCommand] using trace
      exact absurd drive (by simp)
  · obtain ⟨released, -⟩ := onlyReleasedLinesAreSampled _ s t es h trace pre d l b post split
    rw [released] at low
    exact absurd low (by decide)

/-! The clearing sequence (R143). -/

/-- Only CLEARED has the code 0 (R141). -/
theorem recoveryCode_eq_zero {r : Recovery} : recoveryCode r = 0x0000#16 ↔ r = .cleared := by
  cases r <;> decide

/-- Events carry each channel's pair along by their own drives on it (10_state.md R40, R44). -/
theorem linesPair_foldl (c : Channel) (es : List Event) (m : Lines) :
    linesPair (es.foldl linesAfter m) c = es.foldl (pairAfter c) (linesPair m c) := by
  have one (m : Lines) (e : Event) : pairAfter c (linesPair m c) e = linesPair (linesAfter m e) c := by
    cases e with
    | drv d l v =>
      by_cases own : d = c
      · subst own; simp [pairAfter, linesAfter]
      · simp [pairAfter, linesAfter, own, linesPair_linesWith_other m (Ne.symm own)]
    | smp d l b => rfl
    | wait d n => rfl
  exact (List.foldl_hom (linesPair · c) one).symm

theorem foldl_pairAfter_stretchEvents (c : Channel) (n : Nat) (p : LinePair) :
    (stretchEvents c n).foldl (pairAfter c) p = p := by
  induction n with
  | zero => rfl
  | succ n ih => rw [stretchEvents_succ, List.foldl_append]; exact ih

theorem foldl_pairAfter_pulsesServed (c : Channel) (ws : List Nat) :
    (ws.flatMap (pulseServed c)).foldl (pairAfter c) releasedPair = releasedPair := by
  induction ws with
  | nil => rfl
  | cons w ws ih =>
    have pulse : (pulseServed c w).foldl (pairAfter c) releasedPair = releasedPair := by
      simp [pulseServed, pulseEvents, foldl_pairAfter_stretchEvents, releasedPair, LinePair.released]
    rw [List.flatMap_cons, List.foldl_append, pulse, ih]

/-- The pulse loop and its last sample leave both lines released, whatever the pair before the command. -/
theorem foldl_pairAfter_loop (c : Channel) (ws : List Nat) (p : LinePair) :
    (loopEvents c ws ++ [Event.smp c .sda true]).foldl (pairAfter c) p = releasedPair := by
  have lead : (recoveryLead c true).foldl (pairAfter c) p = releasedPair := by
    simp [recoveryLead, releasedPair, LinePair.released]
  have exit (p : LinePair) : (loopExit c ws.length).foldl (pairAfter c) p = p := by
    unfold loopExit; split <;> rfl
  simp [loopEvents, lead, foldl_pairAfter_pulsesServed, exit]

/-- The clearing sequence makes a START and a STOP while the clock is released, and no other condition. -/
theorem conditions_clearing (c : Channel) :
    conditions clockReleased c releasedPair (settled c .sda .l ++ settled c .sda .z) = [.start, .stop] := by
  cases c <;> decide

/-- Settles O45: CLEARED's events end in the clearing sequence, and up to it SDA is only released. -/
theorem clearingSequenceIsStartThenStop : Obligations.ClearingSequenceIsStartThenStop := by
  intro f c s t es hc h trace res
  obtain ⟨r, ws, -, -, course⟩ := recover_cases c s
  have run := exec_busrst hc course
  obtain rfl := events_of_exec run h trace
  have pair : t.pair c = releasedPair := everyCommandEndsWithItsPair (.busrst f) s t c hc h
  obtain rfl : r = .cleared := by
    obtain rfl := Host.Outcome.next.inj (run.symm.trans h)
    exact recoveryCode_eq_zero.mp res
  refine ⟨⟨loopEvents c ws ++ [.smp c .sda true], rfl, ?_, fun d v drive => ?_, conditions_clearing c⟩, pair,
    by rw [pair]; rfl⟩
  · rw [linesPair_foldl, foldl_pairAfter_loop]
  · exact sdaKept_append (sdaKept_loop c ws) (sdaKept_smp c .sda true) _ drive

end Sys2Proof.Machine

/-! Family 42_temperature.md. The decode of a reading, and TEMP's address sweep as whole next states. -/

namespace Sys2Proof.Machine

/-! The fixed-point decode (R160, R162, R163, R165). -/

/-- Settles O46: the subtraction from full scale gives the masked word, and so its signed value. -/
theorem tempDecodeIsTheMask : Obligations.TempDecodeIsTheMask :=
  fun raw => ⟨tempDecode_eq_masked raw, congrArg sint16 (tempDecode_eq_masked raw)⟩

/-- Settles O47: the sixteen rows, computed by R162's own steps. -/
theorem tempDecodeVectors : Obligations.TempDecodeVectors := by
  unfold Obligations.TempDecodeVectors
  decide

/-- The status bits do not reach the reading (R161). -/
theorem tempDecode_mask (raw : Word) : tempDecode (raw &&& 0xFFF8#16) = tempDecode raw := by
  rw [tempDecode_eq_masked, tempDecode_eq_masked, BitVec.and_assoc, BitVec.and_self]

/-- A multiple of 8 as a word is one as a signed number: the wrap of 65536 is itself a multiple of 8. -/
theorem sint16_of_mod_eight {w : Word} (h : w.toNat % 8 = 0) :
    ∃ n : Int, sint16 w = 8 * n ∧ -4096 ≤ n ∧ n ≤ 4095 := by
  have signed : sint16 w = if 2 * w.toNat < 2 ^ 16 then (w.toNat : Int) else w.toNat - 2 ^ 16 :=
    BitVec.toInt_eq_toNat_cond w
  have := w.isLt
  refine ⟨sint16 w / 8, ?_⟩
  split at signed <;> omega

/-- Eight units of 1/128 degree are a sixteenth of a degree (R160). -/
theorem tempDegrees_of_sint16 {w : Word} {n : Int} (h : sint16 w = 8 * n) : tempDegrees w = (n : ℚ) / 16 := by
  rw [tempDegrees, h]
  push_cast
  ring

/-- Settles O48: the decode is a multiple of 8, and its word holds every bit but the status bits. -/
theorem tempReadingsAreSixteenths : Obligations.TempReadingsAreSixteenths := by
  intro raw
  obtain ⟨n, eight, low, high⟩ := sint16_of_mod_eight (tempDecode_mod_eight raw)
  exact ⟨(tempDecode_mask raw).symm, n, eight, tempDegrees_of_sint16 eight, low, high⟩

/-! TEMP's sweep from the state before the command (R161). -/

/-- TEMP is its sweep over the four indices. -/
theorem exec_temp {c : BitVec 2} {ch : Channel} (hc : channelOf c = some ch) (s : State) :
    exec (.temp c) s = .next (sweepTemp Config.params ch (List.range 4) s) :=
  onChannel_some hc s _

/-- The sensor answers at index i after every index of `is` has refused. Only the first START can find SDA low: each STOP
leaves the idle pair for the next one (D6). -/
theorem sweepTemp_foundAfter (q : Config.Params) (s : State) (c : Channel) (is tail : List Nat) (i : Nat) (hi lo : Byte)
    (rest : List Bool)
    (answers : s.answers = List.replicate is.length true ++ false :: (bitsMsb hi ++ (bitsMsb lo ++ rest))) :
    sweepTemp q c (is ++ i :: tail) s =
      finish (tempDecode (tempWord hi lo)) .ok
        (ran s c (is.flatMap (tempMiss c q.tempBase7) ++ startEvents c (tempAddress q.tempBase7 i) false ++
          rdbEvents c .ack (bitsMsb hi) ++ rdbEvents c .nack (bitsMsb lo)) idlePair (!startReady (s.pair c))) := by
  have found (p : LinePair) (br : Bool) := sweepTemp_found q s c tail (List.replicate is.length true) rest
    (is.flatMap (tempMiss c q.tempBase7)) p br i hi lo answers (by simp [countSmp_tempMisses])
  have misses := sweepTemp_misses q s c (i :: tail) is [] _ [] (s.pair c) false answers rfl
  rw [ran_none] at misses
  by_cases first : is = []
  · subst first
    simpa [ran_none] using found (s.pair c) false
  · rw [misses, if_neg first, List.nil_append, found]
    simp [startReady, idlePair]

/-- Every index of `is` refuses, and none is left. -/
theorem sweepTemp_noSensor (q : Config.Params) (s : State) (c : Channel) {is : List Nat} (tried : is ≠ [])
    (rest : List Bool) (answers : s.answers = List.replicate is.length true ++ rest) :
    sweepTemp q c is s =
      finish 0x0000#16 .noAck (ran s c (is.flatMap (tempMiss c q.tempBase7)) idlePair (!startReady (s.pair c))) := by
  have misses := sweepTemp_misses q s c [] is [] rest [] (s.pair c) false answers rfl
  rw [ran_none, List.append_nil, if_neg tried] at misses
  exact misses

/-- The indices tried before i, i itself, and those not tried any more. -/
theorem range_eq_append_cons {i n : Nat} (h : i < n) : ∃ tail, List.range n = List.range i ++ i :: tail := by
  obtain ⟨k, rfl⟩ := Nat.exists_eq_add_of_lt h
  exact ⟨_, by rw [Nat.add_assoc, List.range_add, List.range_succ_eq_map]; rfl⟩

theorem countDrv_tempFound (c : Channel) (base : Addr7) (i : Nat) (hi lo : Byte) :
    countDrv (tempFound c base i hi lo) = 34 * i + 78 := by
  simp [tempFound, countDrv_append, countDrv_tempMisses, countDrv_startEvents, countDrv_rdbEvents]

theorem countSmp_tempFound (c : Channel) (base : Addr7) (i : Nat) (hi lo : Byte) :
    countSmp (tempFound c base i hi lo) = i + 17 := by
  simp [tempFound, countSmp_tempMisses]

/-- Settles O49: i refused addresses, one acknowledged, and its two bytes decoded. -/
theorem tempReadsTheSensor : Obligations.TempReadsTheSensor := by
  intro c ch s i hi lo rest hc lt answers
  refine ⟨?_, countDrv_tempFound .., countSmp_tempFound ..⟩
  obtain ⟨tail, indices⟩ := range_eq_append_cons lt
  rw [exec_temp hc, indices,
    sweepTemp_foundAfter _ s ch (List.range i) tail i hi lo rest (by simpa using answers), startReady_iff, tempAddress_eq,
    tempDecode_eq_masked, tempWord_eq]
  rfl

/-- Settles O50: all four addresses refused. -/
theorem tempReportsNoSensor : Obligations.TempReportsNoSensor := by
  intro c ch s rest hc answers
  refine ⟨?_, countDrv_tempMisses .., countSmp_tempMisses ..⟩
  rw [exec_temp hc, sweepTemp_noSensor (is := List.range 4) _ s ch (by simp) rest answers, startReady_iff]
  rfl

end Sys2Proof.Machine

/-! Family 43_onewire_bridge.md. The bridge commands as whole next states: their transfers, their polls, and the corrective
reset that a failure is answered with. -/

namespace Sys2Proof.Machine

/-! Results that are replaced. -/

/-- Of two commits the second is what the host sees (10_state.md R36). -/
theorem finish_finish (w w' : Word) (e e' : ErrCode) (s : State) : finish w' e' (finish w e s) = finish w' e' s := by
  simp [finish, rstatWithErr_withErr]

theorem errNumber_eq_ok {e : ErrCode} : errNumber e = errNumber .ok ↔ e = .ok := by
  cases e <;> decide

/-- What the host reads of a bridge command's success. -/
theorem finishBool_ok_iff {x : ErrCode × State} : rstatErr (finishBool x).rstat = errNumber .ok ↔ x.1 = .ok := by
  rw [finishBool, finish_rstat, rstatErr_withErr, errNumber_eq_ok]

theorem ackWord_eq_zero {a : Ack} : ackWord a = 0x0000#16 ↔ a = .ack := by
  cases a <;> decide

theorem ofNat_byteWord (b : Byte) : BitVec.ofNat 8 (byteWord b).toNat = b := by
  rw [byteWord, BitVec.toNat_setWidth_of_le (by decide), BitVec.ofNat_toNat, BitVec.setWidth_eq]

/-! Each bridge command is its body on the channel it names. -/

section Commands

variable {c : BitVec 2} {ch : Channel}

theorem exec_owrst (hc : channelOf c = some ch) (a7 : Addr7) (s : State) :
    exec (.owrst c a7) s = .next (finishBool (owrstBody Config.params ch a7 s)) :=
  onChannel_some hc s _

theorem exec_owcfg (hc : channelOf c = some ch) (a7 : Addr7) (s : State) :
    exec (.owcfg c a7) s = .next (finishBool (owcfgBody Config.params ch a7 s)) :=
  onChannel_some hc s _

theorem exec_owdet (hc : channelOf c = some ch) (a7 : Addr7) (s : State) :
    exec (.owdet c a7) s = .next (finishBool (detect Config.params ch a7 s)) :=
  onChannel_some hc s _

theorem exec_owtrp (hc : channelOf c = some ch) (dir : Bool) (a7 : Addr7) (s : State) :
    exec (.owtrp c dir a7) s = .next (triplet Config.params ch dir a7 s) :=
  onChannel_some hc s _

/-- A command that ends in a corrective reset is what one OWRST does after its transfers, with its own result in place of that
OWRST's (R180): OWRST_body does not look at the result it finds. -/
theorem correctiveReset_is_owrst {i : Instr} {s t : State} {a7 : Addr7} {err : ErrCode} (hc : channelOf c = some ch)
    (run : exec i s = .next (finish 0x0000#16 err (correctiveReset Config.params ch a7 t))) :
    ∃ u, exec (.owrst c a7) (finish 0x0000#16 err t) = .next u ∧
      exec i s = .next { u with res := 0x0000#16, rstat := rstatWithErr u.rstat err } := by
  refine ⟨_, exec_owrst hc a7 _, run.trans (congrArg Host.Outcome.next ?_)⟩
  rw [(transparent_finish ch 0x0000#16 err).owrstBody]
  exact ((finish_finish ..).trans (finish_finish ..)).symm

end Commands

/-! The counts of the transfers (R181, R182, R184). -/

theorem countDrv_bridgeOpen (c : Channel) (a7 : Addr7) (bytes : List Byte) :
    countDrv (bridgeOpen c a7 bytes) = 65 + 29 * bytes.length := by
  have written : countDrv (bytes.flatMap fun b => wrbEvents c b false) = 29 * bytes.length := by
    induction bytes with
    | nil => rfl
    | cons b bytes ih => simp [countDrv_append, countDrv_wrbEvents, ih]; omega
  simp only [bridgeOpen, countDrv_append, countDrv_startEvents, countDrv_rstartEvents, written]
  omega

theorem countSmp_bridgeOpen (c : Channel) (a7 : Addr7) (bytes : List Byte) :
    countSmp (bridgeOpen c a7 bytes) = 2 + bytes.length := by
  have written : countSmp (bytes.flatMap fun b => wrbEvents c b false) = bytes.length := by
    induction bytes with
    | nil => rfl
    | cons b bytes ih => simp [ih]; omega
  simp only [bridgeOpen, countSmp_append, countSmp_startEvents, countSmp_rstartEvents, written]
  omega

/-! OWDET goes by the code of its reset (R183). -/

theorem detect_of_ok {q : Config.Params} {c : Channel} {a7 : Addr7} {s : State} (ok : (owrstBody q c a7 s).1 = .ok) :
    detect q c a7 s = owcfgBody q c a7 (owrstBody q c a7 s).2 := by
  simp only [detect, ok]

/-- The match of OWDET falls to its last arm. -/
theorem detect_of_failed {q : Config.Params} {c : Channel} {a7 : Addr7} {s : State}
    (failed : (owrstBody q c a7 s).1 ≠ .ok) : detect q c a7 s = owrstBody q c a7 s := by
  simp only [detect]

/-! The bodies from the state before the command, with their transfers answered. -/

section Transfers

variable (q : Config.Params) (s : State) (c : Channel) (a7 : Addr7) {rest : List Bool}

theorem owrstBody_reads {st : Byte} (answers : s.answers = List.replicate 3 false ++ (bitsMsb st ++ rest)) :
    owrstBody q c a7 s =
      (if st &&& q.rstMask = q.rstPattern then .ok else .resetStatus,
        ran s c (bridgeOpen c a7 [q.cmdDrst] ++ rdbEvents c .nack (bitsMsb st)) idlePair (!startReady (s.pair c))) := by
  have body := owrstBody_acked q s c a7 [] (s.pair c) false [] rest st answers rfl
  rwa [ran_none] at body

theorem owrstBody_refused {j : Nat} (lt : j < 3) (answers : s.answers = List.replicate j false ++ true :: rest) :
    owrstBody q c a7 s = (.noAck, ran s c (bridgeNacked c a7 [q.cmdDrst] j) idlePair (!startReady (s.pair c))) := by
  have body := owrstBody_nacked q s c a7 [] (s.pair c) false [] rest j lt answers rfl
  rwa [ran_none] at body

/-- Four acknowledged transfers from the state before the command (R182, R184). -/
theorem fourTransfers_open (x y : Byte) (answers : s.answers = List.replicate 4 false ++ rest) :
    untilNack [startBody c (writeAddress a7), wrbBody c x, wrbBody c y, rstartBody c (readAddress a7)] s =
      (.ack, ran s c (bridgeOpen c a7 [x, y]) heldPair (!startReady (s.pair c))) := by
  have opened := fourTransfers_acked s c a7 x y [] (s.pair c) false [] rest answers rfl
  rwa [ran_none] at opened

/-- The same with transfer j refused, and the STOP that follows (R180). -/
theorem fourTransfers_stopped (x y : Byte) {j : Nat} (lt : j < 4)
    (answers : s.answers = List.replicate j false ++ true :: rest) :
    ∃ t, untilNack [startBody c (writeAddress a7), wrbBody c x, wrbBody c y, rstartBody c (readAddress a7)] s =
        (.nack, t) ∧
      stopBody c t = ran s c (bridgeNacked c a7 [x, y] j) idlePair (!startReady (s.pair c)) := by
  have refused := fourTransfers_nacked s c a7 x y [] (s.pair c) false [] rest j lt answers rfl
  rwa [ran_none] at refused

/-- OWCFG_body with its four transfers acknowledged and the read-back rb (R182). -/
theorem owcfgBody_reads {rb : Byte} {t : State} (answers : s.answers = List.replicate 4 false ++ (bitsMsb rb ++ rest))
    (read : t = ran s c (bridgeOpen c a7 [q.cmdWcfg, q.configByte] ++ rdbEvents c .nack (bitsMsb rb)) idlePair
      (!startReady (s.pair c))) :
    owcfgBody q c a7 s = if rb = q.configByte then (.ok, t) else (.verifyFail, correctiveReset q c a7 t) := by
  have opened := fourTransfers_open s c a7 q.cmdWcfg q.configByte answers
  have last := rdbBody_answered s c (bridgeOpen c a7 [q.cmdWcfg, q.configByte]) heldPair (!startReady (s.pair c)) .nack
    (List.replicate 4 false) rest rb answers (countSmp_bridgeOpen ..)
  simp only [owcfgBody, opened, last, read]

/-- OWCFG_body whose transfer j is the first not acknowledged (R180, R182). -/
theorem owcfgBody_refused {j : Nat} (lt : j < 4) (answers : s.answers = List.replicate j false ++ true :: rest) :
    owcfgBody q c a7 s = (.noAck, correctiveReset q c a7
      (ran s c (bridgeNacked c a7 [q.cmdWcfg, q.configByte] j) idlePair (!startReady (s.pair c)))) := by
  obtain ⟨t, nacked, stopped⟩ := fourTransfers_stopped s c a7 q.cmdWcfg q.configByte lt answers
  simp only [owcfgBody, nacked, stopped]

/-- OWTRP whose transfer j is the first not acknowledged: no corrective reset (R184, D15). -/
theorem triplet_refused (dir : Bool) {j : Nat} (lt : j < 4) (answers : s.answers = List.replicate j false ++ true :: rest) :
    triplet q c dir a7 s = finish 0x0000#16 .noAck
      (ran s c (bridgeNacked c a7 [q.cmd1wt, dirByte dir] j) idlePair (!startReady (s.pair c))) := by
  obtain ⟨t, nacked, stopped⟩ := fourTransfers_stopped s c a7 q.cmd1wt (dirByte dir) lt answers
  simp only [triplet, nacked, stopped]

/-- The polls of OWTRP: reads that show BUSY and the read that ends the loop, for its BUSY or as the last one allowed (R184). -/
theorem polls_answered {br : Bool} {last : Byte} : ∀ {busy : List Byte} {n : Nat} {es : List Event} {as : List Bool},
    busy.length ≤ n → (∀ b ∈ busy, statusBusy b = true) → (statusBusy last = false ∨ busy.length = n) →
    s.answers = as ++ ((busy ++ [last]).flatMap bitsMsb ++ rest) → countSmp es = as.length →
    pollBusy c n (rdbBody c .ack (ran s c es heldPair br)).1 (rdbBody c .ack (ran s c es heldPair br)).2 =
      (last, ran s c (es ++ (busy ++ [last]).flatMap fun b => rdbEvents c .ack (bitsMsb b)) heldPair br)
  | [], n, es, as, _, _, ends, answers, taken => by
    rw [rdbBody_answered s c es heldPair br .ack as rest last (by simpa using answers) taken]
    rcases ends with clear | rfl
    · simp [pollBusy_clear c n last _ clear]
    · simp [pollBusy]
  | b :: busy, n + 1, es, as, le, shown, ends, answers, taken => by
    have read := rdbBody_answered s c es heldPair br .ack as ((busy ++ [last]).flatMap bitsMsb ++ rest) b
      (by simpa using answers) taken
    have more := polls_answered (br := br) (es := es ++ rdbEvents c .ack (bitsMsb b)) (as := as ++ bitsMsb b)
      (Nat.le_of_succ_le_succ le) (fun x hx => shown x (by simp [hx])) (by simpa using ends) (by simpa using answers)
      (by simp [taken])
    rw [read, pollBusy, if_pos (shown b (by simp)), more]
    simp

/-- OWTRP with its four transfers acknowledged, its polls and the final byte f (R184). -/
theorem triplet_polled (dir : Bool) {busy : List Byte} {last f : Byte} {t : State} (le : busy.length ≤ 199)
    (shown : ∀ b ∈ busy, statusBusy b = true) (ends : statusBusy last = false ∨ busy.length = 199)
    (answers : s.answers = List.replicate 4 false ++ ((busy ++ [last]).flatMap bitsMsb ++ (bitsMsb f ++ rest)))
    (read : t = ran s c (bridgeOpen c a7 [q.cmd1wt, dirByte dir] ++
        (busy ++ [last]).flatMap (fun b => rdbEvents c .ack (bitsMsb b)) ++ rdbEvents c .nack (bitsMsb f)) idlePair
      (!startReady (s.pair c))) :
    triplet q c dir a7 s = if statusBusy last then finish 0x0000#16 .pollLimit (correctiveReset q c a7 t)
      else finish (byteWord f) .ok t := by
  have opened := fourTransfers_open s c a7 q.cmd1wt (dirByte dir) answers
  have polled := polls_answered s c (br := !startReady (s.pair c)) (es := bridgeOpen c a7 [q.cmd1wt, dirByte dir]) le shown
    ends answers (countSmp_bridgeOpen ..)
  have final := rdbBody_answered s c
    (bridgeOpen c a7 [q.cmd1wt, dirByte dir] ++ (busy ++ [last]).flatMap fun b => rdbEvents c .ack (bitsMsb b)) heldPair
    (!startReady (s.pair c)) .nack (List.replicate 4 false ++ (busy ++ [last]).flatMap bitsMsb) rest f
    (by simpa using answers)
    (by simp only [countSmp_append, countSmp_bridgeOpen, countSmp_reads, List.length_append, List.length_replicate,
      bitsMsb_flatMap_length]; rfl)
  simp only [triplet, opened, pollTriplet, Config.pollLimit, polled, final, read]

end Transfers

/-- Settles O51: three acknowledged transfers and the status byte. -/
theorem owrstReportsTheStatus : Obligations.OwrstReportsTheStatus := by
  intro c ch a7 s st rest hc answers
  refine ⟨?_, by simp [countDrv_append, countDrv_bridgeOpen, countDrv_rdbEvents], by simp [countSmp_bridgeOpen]⟩
  rw [exec_owrst hc, owrstBody_reads _ s ch a7 answers, startReady_iff]
  by_cases matched : st &&& Config.params.rstMask = Config.params.rstPattern <;> simp [matched, finishBool, boolWord, after]

/-- Settles O52: the transfers up to the refused one, and STOP. -/
theorem owrstStopsAtTheFirstNack : Obligations.OwrstStopsAtTheFirstNack := by
  intro c ch a7 s j rest hc lt answers
  rw [exec_owrst hc, owrstBody_refused _ s ch a7 lt answers, startReady_iff]
  rfl

/-- Settles O53: four acknowledged transfers and the read-back, compared. -/
theorem owcfgVerifiesTheReadBack : Obligations.OwcfgVerifiesTheReadBack := by
  intro c ch a7 s rb rest hc answers
  have body := owcfgBody_reads Config.params s ch a7 answers rfl
  rw [startReady_iff] at body
  refine ⟨_, rfl, by simp [countDrv_append, countDrv_bridgeOpen, countDrv_rdbEvents], by simp [countSmp_bridgeOpen],
    fun equal => ?_, fun differs => correctiveReset_is_owrst hc ?_⟩
  · rw [exec_owcfg hc, body, if_pos equal]
    rfl
  · rw [exec_owcfg hc, body, if_neg differs]
    rfl

/-- Settles O54: the transfers up to the refused one, STOP, and the corrective reset. -/
theorem owcfgResetsAfterANack : Obligations.OwcfgResetsAfterANack := by
  intro c ch a7 s j rest hc lt answers
  refine correctiveReset_is_owrst hc ?_
  rw [exec_owcfg hc, owcfgBody_refused _ s ch a7 lt answers, startReady_iff]
  rfl

/-- Settles O55: OWRST's commit does not reach OWCFG_body, and only its ERR decides. -/
theorem owdetIsResetThenConfig : Obligations.OwdetIsResetThenConfig := by
  intro c a7 s legal
  obtain ⟨ch, hc⟩ := Option.ne_none_iff_exists'.mp (mt (channelOf_none_iff c).mp legal)
  refine ⟨_, _, exec_owrst hc a7 s, exec_owcfg hc a7 _, fun ok => ?_, fun failed => ?_⟩
  · rw [exec_owdet hc, detect_of_ok (finishBool_ok_iff.mp ok)]
    simp only [finishBool, (transparent_finish ch _ _).owcfgBody, finish_finish]
  · rw [exec_owdet hc, detect_of_failed (mt finishBool_ok_iff.mpr failed)]

/-- Settles O56: the polls end at the first without BUSY, and the final byte is the result. -/
theorem owtrpReturnsTheFinalStatus : Obligations.OwtrpReturnsTheFinalStatus := by
  intro c ch dir a7 s busy clear f rest hc lt shown cleared answers
  refine ⟨_, rfl, ?_, ?_, ?_⟩
  · have notBusy : ¬statusBusy clear = true := ne_true_of_eq_false cleared
    rw [exec_owtrp hc, triplet_polled _ s ch a7 dir (Nat.le_of_lt_succ lt) shown (.inl cleared)
      (by simpa using answers) rfl, if_neg notBusy, startReady_iff, byteWord_eq]
    rfl
  · rw [countDrv_append, countDrv_append, countDrv_bridgeOpen, countDrv_ackReads, countDrv_rdbEvents, List.length_append]
    rfl
  · rw [countSmp_append, countSmp_append, countSmp_bridgeOpen, countSmp_reads, countSmp_rdbEvents, List.length_append]
    rfl

/-- Settles O57: the 200th poll ends the loop, and its BUSY brings the corrective reset. -/
theorem owtrpReportsThePollLimit : Obligations.OwtrpReportsThePollLimit := by
  intro c ch dir a7 s busy f rest hc length shown answers
  obtain rfl | ⟨before, last, rfl⟩ := List.eq_nil_or_concat' busy
  · contradiction
  have count : before.length = 199 := by simpa using length
  have stillBusy : statusBusy last = true := shown last (by simp)
  refine correctiveReset_is_owrst hc ?_
  rw [exec_owtrp hc, triplet_polled _ s ch a7 dir count.le (fun b hb => shown b (by simp [hb])) (.inr count)
    (by simpa using answers) rfl, if_pos stillBusy, startReady_iff]
  rfl

/-- Settles O58: the transfers up to the refused one, and STOP. -/
theorem owtrpStopsAtTheFirstNack : Obligations.OwtrpStopsAtTheFirstNack := by
  intro c ch dir a7 s j rest hc lt answers
  rw [exec_owtrp hc, triplet_refused _ s ch a7 dir lt answers, startReady_iff]
  rfl

/-! OWTRP in any environment: what each part can emit at most (R185). -/

/-- From s to t there are at most so many drives and samples. -/
def Within (drives samples : Nat) (s t : State) : Prop :=
  ∃ es, t.trace = s.trace ++ es ∧ countDrv es ≤ drives ∧ countSmp es ≤ samples

/-- From every state f keeps within the bounds. -/
def Costs {α : Type} (drives samples : Nat) (f : State → α × State) : Prop := ∀ s, Within drives samples s (f s).2

section Bounds

variable {d n d' n' : Nat} {s t u : State}

theorem Within.refl (s : State) : Within 0 0 s s := ⟨[], by simp, by decide, by decide⟩

theorem Within.trans (h : Within d n s t) (h' : Within d' n' t u) : Within (d + d') (n + n') s u := by
  obtain ⟨es, trace, drives, samples⟩ := h
  obtain ⟨es', trace', drives', samples'⟩ := h'
  refine ⟨es ++ es', by simp [trace', trace], ?_, ?_⟩
  · rw [countDrv_append]
    omega
  · rw [countSmp_append]
    omega

theorem Within.mono (h : Within d n s t) (hd : d ≤ d') (hn : n ≤ n') : Within d' n' s t := by
  obtain ⟨es, trace, drives, samples⟩ := h
  exact ⟨es, trace, drives.trans hd, samples.trans hn⟩

/-- A commit emits nothing. -/
theorem Within.finish (h : Within d n s t) (w : Word) (e : ErrCode) : Within d n s (finish w e t) := h

/-- What a trace counts bounds the state it leaves. -/
theorem within_ran {c : Channel} {es : List Event} {p : LinePair} {br : Bool} (drives : countDrv es = d)
    (samples : countSmp es = n) : Within d n s (ran s c es p br) :=
  ⟨es, ran_trace s c es p br, drives.le, samples.le⟩

theorem startBody_costs (c : Channel) (ab : Byte) : Costs 32 1 (startBody c ab) := fun s => by
  rw [startBody_eq]
  exact within_ran (countDrv_startEvents ..) (countSmp_startEvents ..)

theorem rstartBody_costs (c : Channel) (ab : Byte) : Costs 33 1 (rstartBody c ab) := fun s => by
  rw [rstartBody_eq]
  exact within_ran (countDrv_rstartEvents ..) (countSmp_rstartEvents ..)

theorem wrbBody_costs (c : Channel) (b : Byte) : Costs 29 1 (wrbBody c b) := fun s => by
  rw [wrbBody_eq]
  exact within_ran (countDrv_wrbEvents ..) (countSmp_wrbEvents ..)

theorem stopBody_within (c : Channel) (s : State) : Within 2 0 s (stopBody c s) := by
  rw [stopBody_eq]
  exact within_ran (countDrv_stopEvents c) (countSmp_stopEvents c)

theorem rdbBody_costs (c : Channel) (k : Ack) : Costs (16 + if k = .ack then 6 else 8) 8 (rdbBody c k) := fun s => by
  have length := readAnswers_length s c 8 (settled c .scl .l ++ settled c .sda .z)
  rw [rdbBody_eq]
  exact within_ran (by rw [countDrv_rdbEvents, length]) (by rw [countSmp_rdbEvents, length])

theorem untilNack_nil_costs : Costs 0 0 (untilNack []) := Within.refl

/-- The transfers cost at most what all of them cost; a NACK only ends them early. -/
theorem Costs.untilNack_cons {f : State → Ack × State} {fs : List (State → Ack × State)} (hf : Costs d n f)
    (hfs : Costs d' n' (untilNack fs)) : Costs (d + d') (n + n') (untilNack (f :: fs)) := fun s => by
  simp only [untilNack]
  split
  · exact (hf s).trans (hfs _)
  · exact (hf s).mono (by omega) (by omega)

theorem owrstBody_costs (q : Config.Params) (c : Channel) (a7 : Addr7) : Costs 118 11 (owrstBody q c a7) := fun s => by
  have opened := (startBody_costs c (writeAddress a7)).untilNack_cons
    ((wrbBody_costs c q.cmdDrst).untilNack_cons ((rstartBody_costs c (readAddress a7)).untilNack_cons untilNack_nil_costs)) s
  simp only [owrstBody]
  split
  · exact (opened.trans (stopBody_within c _)).mono (by omega) (by omega)
  · exact opened.trans (rdbBody_costs c .nack _)

theorem pollBusy_costs (c : Channel) : ∀ (n : Nat) (st : Byte), Costs (22 * n) (8 * n) (pollBusy c n st)
  | 0, _, s => .refl s
  | n + 1, st, s => by
    simp only [pollBusy]
    split
    · exact ((rdbBody_costs c .ack s).trans (pollBusy_costs c n _ _)).mono (by simp; omega) (by omega)
    · exact (Within.refl s).mono (by omega) (by omega)

/-- At most 201 status reads, and one corrective reset (R184). -/
theorem pollTriplet_within (q : Config.Params) (c : Channel) (a7 : Addr7) (s : State) :
    Within (22 * 200 + 24 + 118) (8 * 201 + 11) s (pollTriplet q c a7 s) := by
  have read := ((rdbBody_costs c .ack s).trans (pollBusy_costs c 199 (rdbBody c .ack s).1 _)).trans
    (rdbBody_costs c .nack _)
  simp only [pollTriplet]
  split
  · exact ((read.trans (owrstBody_costs q c a7 _)).mono (by simp) (by simp)).finish _ _
  · exact (read.mono (by simp) (by simp)).finish _ _

theorem triplet_within (q : Config.Params) (c : Channel) (dir : Bool) (a7 : Addr7) (s : State) :
    Within (123 + 22 * 200 + 24 + 118) (4 + 8 * 201 + 11) s (triplet q c dir a7 s) := by
  have opened := (startBody_costs c (writeAddress a7)).untilNack_cons ((wrbBody_costs c q.cmd1wt).untilNack_cons
    ((wrbBody_costs c (dirByte dir)).untilNack_cons
      ((rstartBody_costs c (readAddress a7)).untilNack_cons untilNack_nil_costs))) s
  simp only [triplet]
  split
  · exact ((opened.trans (stopBody_within c _)).mono (by omega) (by omega)).finish _ _
  · exact (opened.trans (pollTriplet_within q c a7 _)).mono (by omega) (by omega)

end Bounds

/-- Settles O59: the bounds of OWTRP's parts add up, and an illegal command has no event. -/
theorem tripletIsBounded : Obligations.TripletIsBounded := by
  intro c dir a7 s
  cases hc : channelOf c with
  | some ch =>
    obtain ⟨es, bounded⟩ := triplet_within Config.params ch dir a7 s
    exact ⟨_, es, exec_owtrp hc dir a7 s, bounded⟩
  | none => exact ⟨_, [], exec_illegal (i := .owtrp c dir a7) hc s, by simp [illegalCommand], by decide, by decide⟩

/-! OWRST written out with primitives (95_test_vectors.md P3). -/

/-- An acknowledged primitive leaves its body's state under the commit of RES = 0 and OK. -/
theorem acked_of_next {c : BitVec 2} {ch : Channel} {s t : State} (f : Channel → State → Ack × State)
    (hc : channelOf c = some ch) (run : onChannel c s (fun ch => finish (ackWord (f ch s).1) .ok (f ch s).2) = .next t)
    (res : t.res = 0x0000#16) : (f ch s).1 = .ack ∧ finish 0x0000#16 .ok (f ch s).2 = t := by
  obtain rfl : finish (ackWord (f ch s).1) .ok (f ch s).2 = t := by simpa [onChannel_some hc] using run
  have acked : (f ch s).1 = .ack := ackWord_eq_zero.mp res
  exact ⟨acked, by rw [acked]; rfl⟩

/-- Settles O60: no primitive looks at the commit before it, and of the commits the last one stays. -/
theorem owrstIsFourPrimitives : Obligations.OwrstIsFourPrimitives := by
  intro c a7 s s1 s2 s3 s4 legal start res1 write res2 restart res3 read
  obtain ⟨ch, hc⟩ := Option.ne_none_iff_exists'.mp (mt (channelOf_none_iff c).mp legal)
  have blind := transparent_finish ch 0x0000#16 .ok
  obtain ⟨ack1, rfl⟩ := acked_of_next (fun ch => startBody ch (wAddr a7)) hc start res1
  obtain ⟨ack2, rfl⟩ := acked_of_next (fun ch => wrbBody ch Config.params.cmdDrst) hc write res2
  simp only [blind.wrbBody, finish_finish] at ack2 restart
  obtain ⟨ack3, rfl⟩ := acked_of_next (fun ch => rstartBody ch (rAddr a7)) hc restart res3
  simp only [blind.rstartBody, finish_finish] at ack3 read
  obtain rfl := Host.Outcome.next.inj ((onChannel_some hc _ _).symm.trans read)
  rw [exec_owrst hc, blind.rdbBody, finish_finish, finish_res, ofNat_byteWord]
  simp only [owrstBody, untilNack, writeAddress_eq, readAddress_eq, ack1, ack2, ack3]
  split
  · exact congrArg Host.Outcome.next (finish_finish ..).symm
  · exact congrArg Host.Outcome.next (finish_finish ..).symm

end Sys2Proof.Machine

/-! Family 60_exceptions.md. Nothing traps, and CV steers nothing. -/

namespace Sys2Proof.Machine

/-- The end of an illegal command commits under CV as without it. -/
theorem illegalCommand_withCv (s : State) :
    illegalCommand { s with rstat := rstatWithCv s.rstat } =
      { illegalCommand s with rstat := rstatWithCv (illegalCommand s).rstat } :=
  finish_withCv 0x0000#16 .illegal s

/-- Settles O28: no primitive and no commit looks at CV, and an illegal command is a commit alone. -/
theorem contractBitSteersNothing : Obligations.ContractBitSteersNothing := by
  intro i s t h
  cases hc : channelOf i.chField with
  | some ch => exact exec_transparent (transparent_withCv ch) finish_withCv hc h
  | none =>
    obtain rfl : illegalCommand s = t := by simpa [exec_illegal hc] using h
    rw [exec_illegal hc, illegalCommand_withCv]

/-- Every action of the outside ends in a next state: a CMD write runs its word to the end, no other action can fail. -/
theorem hostAction_next (a : Input) (s : State) : ∃ t, hostAction a s = .next t :=
  match a with
  | .write .cmd w => runWord_next w (hostWrite .cmd w s)
  | .write .res _ => ⟨_, rfl⟩
  | .write .rstat _ => ⟨_, rfl⟩
  | .read _ => ⟨_, rfl⟩
  | .reset => ⟨_, rfl⟩

/-- No step faults or is refused (60_exceptions.md R220). -/
theorem step_next (s : State) : ∃ t, step s = .next t := by
  cases hs : s.inputs with
  | nil => exact ⟨s, step_idle hs⟩
  | cons a rest =>
    rw [step_action hs]
    exact hostAction_next a _

/-- Settles O16: a command is a run and one commit, whose code is legal, and a step is one action of the outside. -/
theorem everyCommandAndStepEnds : Obligations.EveryCommandAndStepEnds := by
  refine ⟨fun i s => ?_, step_next⟩
  obtain ⟨t, ht⟩ := exec_next i s
  obtain ⟨ch, es, run⟩ := exec_commands ht
  exact ⟨t, ht, run.errLegal⟩

end Sys2Proof.Machine

/-! Family 70_reset_and_hazards.md. What a reset leaves. -/

namespace Sys2Proof.Machine

/-- Reset releases both lines of every channel (R250). -/
theorem resetEngine_pair (s : State) : ∀ c : Channel, (resetEngine s).pair c = .released
  | .ch0 => rfl
  | .ch1 => rfl
  | .ch2 => rfl

theorem resetEngine_line (s : State) (c : Channel) (l : Line) : (resetEngine s).line c l = .z :=
  line_of_released (resetEngine_pair s c) l

theorem resetEngine_trace (s : State) : (resetEngine s).trace = s.trace := rfl

theorem step_reset {s : State} {rest : List Input} (h : s.inputs = .reset :: rest) :
    step s = .next (resetEngine { s with inputs := rest }) := step_action h

/-- Settles O10: the state after reset and a reset's next state are both an engine reset, which emits nothing; with no action
pending a step is idle. -/
theorem resetReleasesAndClears : Obligations.ResetReleasesAndClears := by
  refine ⟨⟨resetEngine_line State.reset, rfl, rfl, rfl⟩, fun s rest hs => ?_, fun history answers => step_idle rfl⟩
  exact ⟨_, step_reset hs, resetEngine_line _, rfl, rfl, rfl, resetEngine_trace _⟩

/-- Settles O11: the step is an engine reset, which keeps the trace, the answers and the host's later actions (log 6). -/
theorem resetActionClearsEngine : Obligations.ResetActionClearsEngine := fun _ _ hs => step_reset hs

end Sys2Proof.Machine
